-- ==== Sys2Proof/Word.lean ====
section
/-! DEFINITION. The word types of the block: the 32-bit command word (30_encoding.md R100), the 16-bit Q15
sample and response (00_scope.md R14, R15; 30_encoding.md R104), the byte and the bit. -/
namespace Sys2Proof

/-- A command word of the port: one 32-bit parallel word (R83, R100). -/
abbrev Word := BitVec 32

/-- A Q15 code, an `int16` in two's complement (R14, R15); its integer is `toInt`. -/
abbrev Sample := BitVec 16

/-- A `uint8` (R14). -/
abbrev Byte := BitVec 8

/-- A `bit` (R14): `true` is 1, logical true. -/
abbrev Bit := Bool

/-- A 16-bit response word RESP (R104). -/
abbrev Response := BitVec 16

end Sys2Proof
end

