-- ==== Sys2Proof/Config.lean ====
section
/-! DEFINITION. The configuration record CFG (00_scope.md R8), its derived sizes (R9), the two test
configurations of 95_test_vectors.md, and the free values of the environment (60_exceptions.md R312).

CFG is an argument of the model (R8: "A field marked OPEN has no value in any source and is an argument of the
model"): State carries it and no step writes it, so a statement about every state holds for every
configuration (DESIGN CHOICE, log 1). -/
namespace Sys2Proof

/-- MAP_MODE (R8): how one bit's level fills its N_SPB samples. -/
inductive MapMode where
  | hold
  | impulse
deriving DecidableEq, Repr

/-- The OPEN fields of the configuration record CFG (R8). L_PF and L_MF are the lengths of PF and MF
(DEDUCED, log 14). -/
structure Cfg where
  /-- N_SPB, samples per bit slot; also the window capacity N_WIN. -/
  nSpb : Nat
  /-- N_BITS, bit slots per frame. -/
  nBits : Nat
  /-- N_PRE, preamble length in slots, the start-of-frame delimiter included. -/
  nPre : Nat
  /-- PRE_FIRST, the first preamble bit. -/
  preFirst : Bit
  /-- MAP_MODE. -/
  mapMode : MapMode
  /-- LEVEL_HIGH, the level of a 1 bit. -/
  levelHigh : Sample
  /-- LEVEL_LOW, the level of a 0 bit. -/
  levelLow : Sample
  /-- PF, the pulse-shaping kernel. -/
  pf : List Sample
  /-- MF, the matched-filter kernel. -/
  mf : List Sample
  /-- THRESHOLD, a signed 16-bit integer. -/
  threshold : Sample
  /-- PWR_LO, the lowest bit of the power slice. -/
  pwrLo : Nat
  /-- TICK_CYCLES, the per-tick budget in timer counts. -/
  tickCycles : Nat
deriving DecidableEq, Repr

namespace Cfg

/-- SHIFT = 4, fixed (R7, R8). -/
def shift : Nat := 4

/-- IDLE_LEVEL = 0x0000, decided (R8). -/
def idleLevel : Sample := 0

/-- CYC_WIDTH = 32, decided (R8). -/
def cycWidth : Nat := 32

/-- L_PF (R8). -/
def lPf (c : Cfg) : Nat := c.pf.length

/-- L_MF (R8). -/
def lMf (c : Cfg) : Nat := c.mf.length

/-- L_MAP = N_BITS × N_SPB (R9). -/
def lMap (c : Cfg) : Nat := c.nBits * c.nSpb

/-- L_FILT = L_MAP + L_PF − 1 (R9). -/
def lFilt (c : Cfg) : Nat := c.lMap + c.lPf - 1

/-- N_WIN = N_SPB (R9). -/
def nWin (c : Cfg) : Nat := c.nSpb

/-- L_Y = N_WIN + L_MF − 1 (R9). -/
def lY (c : Cfg) : Nat := c.nWin + c.lMf - 1

/-- The test configuration TV of 95_test_vectors.md section 0. -/
def tv : Cfg where
  nSpb := 2
  nBits := 6
  nPre := 4
  preFirst := true
  mapMode := .hold
  levelHigh := 0x4000
  levelLow := 0xC000
  pf := [0x4000, 0x4000]
  mf := [0x4000, 0x4000]
  threshold := 256
  pwrLo := 16
  tickCycles := 1000

/-- The test configuration TV8 of 95_test_vectors.md section 0: TV with twelve bit slots. -/
def tv8 : Cfg := { tv with nBits := 12 }

end Cfg

/-- FREE VALUE (R312, `draw IN()`: "a free Q15 value under no law"): the answer of the input transducer to
the n-th draw that State's list of answers does not already fix (log 4). -/
opaque Config.freeSample : Nat → Sample

/-- FREE VALUE (R312, `draw INBOUND()`: "a free value in {none} ∪ {some v | v a byte}"): the answer of the
inbound byte source to the n-th draw State does not already fix (log 4). -/
opaque Config.freeInbound : Nat → Option Byte

/-- FREE VALUE (R268: "CLK steps interleave with sequencer steps in any order"): whether SEQ, and not CLK,
moves next in SCHEDULED mode where State's agenda does not say (log 3). -/
opaque Config.freeSeqMoves : Nat → Bool

end Sys2Proof
end

