-- ==== Sys2Proof/Machine/Arith.lean ====
section
/-! DEFINITION. The Q15 arithmetic unit (40_q15_arith.md): pure functions of their operands and of the
configuration constants SHIFT, PWR_LO and THRESHOLD (R147). -/
namespace Sys2Proof.Machine

/-- `sat16(v)` (R130). -/
def sat16 (v : Int) : Int :=
  if v > 32767 then 32767 else if v < -32768 then -32768 else v

/-- `asr(v, n) = floor(v / 2^n)` (R131). -/
def asr (v : Int) (n : Nat) : Int := v / ((2 ^ n : Nat) : Int)

/-- The Q15 product (R132): the exact Q30 integer. -/
def q15Product (a b : Sample) : Int := a.toInt * b.toInt

/-- The two's-complement pattern of an `int16` result (R14, R15). -/
def toSample (v : Int) : Sample := BitVec.ofInt 16 v

/-- Element `i` of an operand array; the index is inside the array wherever a rule forms it (R17). -/
def element (x : List Sample) (i : Nat) : Sample := x.getD i 0

/-- The least `k` of output `n`'s sum: max(0, n − Nh + 1) (R134). -/
def convLow (nh n : Nat) : Nat := n + 1 - nh

/-- The greatest `k` of output `n`'s sum: min(n, Nx − 1) (R134). -/
def convHigh (nx n : Nat) : Nat := min n (nx - 1)

/-- The accumulator of output `n` (R133, R134): the exact sum of x[k] × h[n−k]. -/
def convAcc (x h : List Sample) (n : Nat) : Int :=
  (List.range (convHigh x.length n + 1 - convLow h.length n)).foldl
    (fun acc j => acc + q15Product (element x (convLow h.length n + j))
      (element h (n - (convLow h.length n + j)))) 0

/-- Output `n`: back to Q15 by floor, then saturation (R134). -/
def convOut (x h : List Sample) (n : Nat) : Sample := toSample (sat16 (asr (convAcc x h n) 15))

/-- `conv(x, h)`, the FIR convolution primitive (R134); its length is Nx + Nh − 1. -/
def conv (x h : List Sample) : List Sample :=
  (List.range (x.length + h.length - 1)).map (convOut x h)

/-- `power(y)`, the exact sum of squares (R137). -/
def power (y : List Sample) : Int := y.foldl (fun acc v => acc + q15Product v v) 0

/-- `slice16(P)` (R138): the 16 bits of P from bit PWR_LO up; the signed reading is `toInt`. -/
def slice16 (c : Cfg) (p : Int) : Sample := BitVec.ofInt 16 (asr p c.pwrLo)

/-- `shift_right(y, n)` (R140). -/
def shiftRight (y : List Sample) (n : Nat) : List Sample :=
  y.map (fun v => toSample (asr v.toInt n))

/-- `minv(z)`, the least element of a nonempty array (R142). The operand of R142 has L ≥ 1; the value given
to the empty list is arbitrary and no step of an accepted configuration forms it (log 15). -/
def minv : List Sample → Int
  | [] => 0
  | a :: rest => rest.foldl (fun m v => min m v.toInt) a.toInt

/-- `maxv(z)`, the greatest element of a nonempty array (R143); the empty list as for `minv` (log 15). -/
def maxv : List Sample → Int
  | [] => 0
  | a :: rest => rest.foldl (fun m v => max m v.toInt) a.toInt

/-- `absv(v)` (R144). -/
def absv (v : Int) : Int := if v < 0 then -v else v

/-- `decide_bit(z)`, the symbol slicer (R145): a strict comparison of the peaks. -/
def decideBit (z : List Sample) : Bit := decide (maxv z > absv (minv z))

/-- `accept(P)`, the threshold detector (R146): a strict comparison of two signed 16-bit values. -/
def acceptPower (c : Cfg) (p : Int) : Bool := decide ((slice16 c p).toInt > c.threshold.toInt)

end Sys2Proof.Machine
end

