-- ==== Sys2Proof/Syntax.lean ====
section
/-! DEFINITION. The commands: one constructor per row of spec/opcode_table.json (30_encoding.md R101), with
the operand of R102. -/
namespace Sys2Proof

/-- The ten commands of the command port (R101). An operand has exactly the type R102 gives it, so every
value of this type is a command of the spec. -/
inductive Instr where
  /-- OP 0x01, `add_bit(b)` (R173). -/
  | modAddBit (b : Bit)
  /-- OP 0x02, `add_byte(v)` (R174). -/
  | modAddByte (v : Byte)
  /-- OP 0x03, `is_ready_for_data()` (R175). -/
  | modIsRfd
  /-- OP 0x04, `is_data_valid()` (R176). -/
  | modIsDv
  /-- OP 0x05, `get_sample()` (R177). -/
  | modGetSample
  /-- OP 0x11, `feed_sample(s)` (R210). -/
  | demFeedSample (v : Sample)
  /-- OP 0x12, `is_data_available()` (R213). -/
  | demIsDa
  /-- OP 0x13, `get_bit()` (R214). -/
  | demGetBit
  /-- OP 0x21, the fault-register read accessor (R250). -/
  | rdFault
  /-- OP 0x22, the detection-power read accessor (R251). -/
  | rdDetpwr
deriving DecidableEq, Repr

end Sys2Proof
end

