-- ==== Sys2Proof/WellFormed.lean ====
section
/-! DEFINITION. What is well formed: a configuration (00_scope.md R10), a configuration inside the spec
(40_q15_arith.md R133) and an instruction. -/
namespace Sys2Proof

/-- A configuration is well formed (R10), clause by clause in the rule's order. -/
abbrev Cfg.WellFormed (c : Cfg) : Prop :=
  1 ≤ c.nSpb ∧ 1 ≤ c.nBits ∧ 1 ≤ c.lPf ∧ 1 ≤ c.lMf ∧
  (c.nPre = 0 ∨ (2 ≤ c.nPre ∧ c.nPre ≤ c.nBits - 1)) ∧
  c.pwrLo ≤ 48 ∧ 1 ≤ c.tickCycles ∧ c.tickCycles < 2 ^ Cfg.cycWidth

/-- Every buffer and kernel has fewer than 2^33 elements (R133: "A configuration with a buffer of 2^33 or more
elements is outside this rule and outside the spec."). The longest buffers are FILT and Y; the others
and the kernels are no longer than these (DEDUCED, log 12). -/
abbrev Cfg.BuffersInSpec (c : Cfg) : Prop :=
  c.lFilt < 2 ^ 33 ∧ c.lY < 2 ^ 33

/-- The configurations the model runs (R10, R133). -/
abbrev Cfg.Accepted (c : Cfg) : Prop := c.WellFormed ∧ c.BuffersInSpec

/-- An instruction is well formed. The operand types of `Instr` are exactly the ranges of R102 (a bit, a byte,
a 16-bit sample), so no further check is left; the checks on what comes from outside are
`Cfg.WellFormed`, `Decode` (R105) and the assembler's operand ranges (R108). -/
def Instr.wellFormed : Instr → Bool
  | .modAddBit _ => true
  | .modAddByte _ => true
  | .modIsRfd => true
  | .modIsDv => true
  | .modGetSample => true
  | .demFeedSample _ => true
  | .demIsDa => true
  | .demGetBit => true
  | .rdFault => true
  | .rdDetpwr => true

end Sys2Proof
end

