-- ==== Sys2Proof/Decode.lean ====
section
/-! DEFINITION. The decoder, total on every 32-bit word (30_encoding.md R103, R105, R106), and after it the
encoder, written from the field layout of R100 to R102. -/
namespace Sys2Proof

/-- Why a word is ILLEGAL (R105: "an OP value not in rule R101 ..., any nonzero RSV field, or any nonzero DATA
bit the command's row fixes to 0"). -/
inductive DecodeError where
  /-- The OP field is no operation number of R101. -/
  | unassignedOp (op : Byte)
  /-- The OP is assigned and the RSV field is not zero. -/
  | reservedNotZero (op : Byte)
  /-- The OP is assigned, RSV is zero, and a DATA bit that the row fixes to 0 is set. -/
  | dataNotZero (op : Byte)
deriving DecidableEq, Repr

/-- One row of the opcode table (R103): the mnemonic, the match and mask, and the instruction that R102's
operand assembly makes of a word of that row. -/
structure OpcodeRow where
  mnemonic : String
  pattern : Word
  mask : Word
  build : Word → Instr

/-- The OP field, bits [31:24] (R100). -/
def opField (w : Word) : Byte := w.extractLsb' 24 8

/-- The RSV field, bits [23:16] (R100). -/
def rsvField (w : Word) : Byte := w.extractLsb' 16 8

/-- The DATA field, bits [15:0] (R100). -/
def dataField (w : Word) : BitVec 16 := w.extractLsb' 0 16

/-- The bit operand, DATA[0] (R102). -/
def bitOperand (w : Word) : Bit := (dataField w).getLsbD 0

/-- The byte operand, DATA[7:0] (R102). -/
def byteOperand (w : Word) : Byte := (dataField w).extractLsb' 0 8

/-- The sample operand, all of DATA (R102): the code itself; its integer reading is `toInt`, which is sext_16. -/
def sampleOperand (w : Word) : Sample := dataField w

/-- The ten rows of R103. -/
def opcodeTable : List OpcodeRow :=
  [ ⟨"MOD_ADD_BIT", 0x01000000, 0xFFFFFFFE, fun w => .modAddBit (bitOperand w)⟩,
    ⟨"MOD_ADD_BYTE", 0x02000000, 0xFFFFFF00, fun w => .modAddByte (byteOperand w)⟩,
    ⟨"MOD_IS_RFD", 0x03000000, 0xFFFFFFFF, fun _ => .modIsRfd⟩,
    ⟨"MOD_IS_DV", 0x04000000, 0xFFFFFFFF, fun _ => .modIsDv⟩,
    ⟨"MOD_GET_SAMPLE", 0x05000000, 0xFFFFFFFF, fun _ => .modGetSample⟩,
    ⟨"DEM_FEED_SAMPLE", 0x11000000, 0xFFFF0000, fun w => .demFeedSample (sampleOperand w)⟩,
    ⟨"DEM_IS_DA", 0x12000000, 0xFFFFFFFF, fun _ => .demIsDa⟩,
    ⟨"DEM_GET_BIT", 0x13000000, 0xFFFFFFFF, fun _ => .demGetBit⟩,
    ⟨"RD_FAULT", 0x21000000, 0xFFFFFFFF, fun _ => .rdFault⟩,
    ⟨"RD_DETPWR", 0x22000000, 0xFFFFFFFF, fun _ => .rdDetpwr⟩ ]

/-- A word belongs to a row iff (word AND mask) = match (R105). -/
def OpcodeRow.matchesWord (r : OpcodeRow) (w : Word) : Bool := w &&& r.mask == r.pattern

/-- The operation numbers of R101. -/
def assignedOps : List Byte := [0x01, 0x02, 0x03, 0x04, 0x05, 0x11, 0x12, 0x13, 0x21, 0x22]

/-- The name of an illegal word's defect (R105), for a word that no row matches. -/
def illegalReason (w : Word) : DecodeError :=
  if assignedOps.contains (opField w) then
    if rsvField w = 0 then .dataNotZero (opField w) else .reservedNotZero (opField w)
  else .unassignedOp (opField w)

/-- Decoding (R106): the first matching row's command, or ILLEGAL by name. -/
def decode (w : Word) : Except DecodeError Instr :=
  match opcodeTable.find? (fun r => r.matchesWord w) with
  | some r => .ok (r.build w)
  | none => .error (illegalReason w)

/-- Format F32 (R100): OP in [31:24], DATA in [15:0], and zeros in RSV between them. -/
def encodeF32 (op : Byte) (data : BitVec 16) : Word := op.setWidth 32 <<< 24 ||| data.setWidth 32

/-- A bit in DATA[0], the other DATA bits 0 (R102). -/
def bitData (b : Bit) : BitVec 16 := if b then 1 else 0

/-- A byte in DATA[7:0], the other DATA bits 0 (R102). -/
def byteData (v : Byte) : BitVec 16 := v.setWidth 16

/-- The operation number of a command (R101). -/
def opNumber : Instr → Byte
  | .modAddBit _ => 0x01
  | .modAddByte _ => 0x02
  | .modIsRfd => 0x03
  | .modIsDv => 0x04
  | .modGetSample => 0x05
  | .demFeedSample _ => 0x11
  | .demIsDa => 0x12
  | .demGetBit => 0x13
  | .rdFault => 0x21
  | .rdDetpwr => 0x22

/-- The DATA field of a command (R102). -/
def dataOf : Instr → BitVec 16
  | .modAddBit b => bitData b
  | .modAddByte v => byteData v
  | .demFeedSample v => v
  | .modIsRfd | .modIsDv | .modGetSample | .demIsDa | .demGetBit | .rdFault | .rdDetpwr => 0

/-- The word of a command (R100 to R102). -/
def encode (i : Instr) : Word := encodeF32 (opNumber i) (dataOf i)

/-- The mnemonic of a command (R101). -/
def mnemonicOf : Instr → String
  | .modAddBit _ => "MOD_ADD_BIT"
  | .modAddByte _ => "MOD_ADD_BYTE"
  | .modIsRfd => "MOD_IS_RFD"
  | .modIsDv => "MOD_IS_DV"
  | .modGetSample => "MOD_GET_SAMPLE"
  | .demFeedSample _ => "DEM_FEED_SAMPLE"
  | .demIsDa => "DEM_IS_DA"
  | .demGetBit => "DEM_GET_BIT"
  | .rdFault => "RD_FAULT"
  | .rdDetpwr => "RD_DETPWR"

/-- The 32-bit word whose low `nbits` bits are `w` (the host's numbering of the table: bit 0 is bit 0 of the
one word a command has, R100). -/
def tableWord (nbits w : Nat) : Word := BitVec.ofNat 32 (w % 2 ^ nbits)

/-- The instruction the decoder reads from a table row's word, none where it refuses. -/
def decodeTableWord (nbits w : Nat) : Option Instr := (decode (tableWord nbits w)).toOption

end Sys2Proof
end

