-- ==== Sys2Proof/Machine/Buffer.lean ====
section
/-! DEFINITION. The buffers MAP, FILT, WIN, Y and Z: lists of elements, each holding a 16-bit value or no value
(10_state.md R56), reached by index (00_scope.md R17). Sizes never change (20_memory.md R81). -/
namespace Sys2Proof.Machine

/-- A buffer: element i is a value or no value (R56). -/
abbrev Buffer := List (Option Sample)

namespace Buffer

/-- A buffer of `n` elements that all hold no value. -/
def noValue (n : Nat) : Buffer := List.replicate n none

/-- A buffer whose elements hold the given values, in index order. -/
def ofValues (xs : List Sample) : Buffer := xs.map some

/-- Element `i` (R17); `none` where it holds no value. -/
def read (b : Buffer) (i : Nat) : Option Sample :=
  match b[i]? with
  | some v => v
  | none => none

/-- `B[i] <- v` (R17). -/
def write (b : Buffer) (i : Nat) (v : Sample) : Buffer := b.set i (some v)

/-- The values of elements 0..n−1; `none` if one of them holds no value (R56). -/
def readFirst : Buffer → Nat → Option (List Sample)
  | _, 0 => some []
  | [], _ + 1 => none
  | none :: _, _ + 1 => none
  | some v :: rest, n + 1 => (readFirst rest n).map (v :: ·)

end Buffer
end Sys2Proof.Machine
end

