-- ==== Sys2Proof/Machine/Mapper.lean ====
section
/-! DEFINITION. The symbol mapper and the framing preamble (41_modulator.md R170 to R172), as functions of the
configuration and of the MAP buffer. -/
namespace Sys2Proof.Machine

/-- `map_level(b)` (R170). -/
def mapLevel (c : Cfg) (b : Bit) : Sample := if b then c.levelHigh else c.levelLow

/-- Sample `k` of a slot that holds bit `b` (R171): HOLD repeats the level, IMPULSE places it once. -/
def slotSample (c : Cfg) (b : Bit) (k : Nat) : Sample :=
  match c.mapMode with
  | .hold => mapLevel c b
  | .impulse => if k = 0 then mapLevel c b else 0

/-- `write_slot(j, b)` (R171): elements j×N_SPB .. j×N_SPB+N_SPB−1 of MAP. -/
def writeSlot (c : Cfg) (j : Nat) (b : Bit) (m : Buffer) : Buffer :=
  (List.range c.nSpb).foldl (fun m k => Buffer.write m (j * c.nSpb + k) (slotSample c b k)) m

/-- `pre(j)` (R172): alternating bits from PRE_FIRST, the last slot inverting the alternation. -/
def preambleBit (c : Cfg) (j : Nat) : Bit :=
  let alternating := xor c.preFirst (decide (j % 2 = 1))
  if j + 1 = c.nPre then !alternating else alternating

/-- MAP right after reset (70_reset_and_hazards.md R342): the preamble in slots 0..N_PRE−1, no value elsewhere. -/
def preambleMap (c : Cfg) : Buffer :=
  (List.range c.nPre).foldl (fun m j => writeSlot c j (preambleBit c j) m) (Buffer.noValue c.lMap)

end Sys2Proof.Machine
end

