-- ==== Sys2Proof/Machine/Units.lean ====
section
/-! DEFINITION. The parts of the state, grouped as 10_state.md R30 groups them, the environment the block talks
to (60_exceptions.md R312, R313), and what reset puts into each part (70_reset_and_hazards.md R341). -/
namespace Sys2Proof.Machine

/-- The operating mode, a model parameter (00_scope.md R12). -/
inductive Mode where
  | scheduled
  | command
deriving DecidableEq, Repr

/-- FAULT.KIND (R46): the five codes the hardware writes. Codes 5 to 7 are reserved and never written. -/
inductive FaultKind where
  | noFault
  | bufferFull
  | getSampleWithoutDataValid
  | demodBufferFull
  | demodDataNotReady
deriving DecidableEq, Repr

/-- DSTATE (R47). -/
inductive DState where
  | noSignal
  | preamble
  | sfd
  | dataSampling
  | dataReady
deriving DecidableEq, Repr

/-- STEP, the tick step about to execute, 1 to 6 (R52, R260). -/
inductive TickStep where
  /-- 1: start the deadline timer. -/
  | startTimer
  /-- 2: read and feed one input sample. -/
  | input
  /-- 3: drain one decoded bit. -/
  | drain
  /-- 4: enqueue one inbound byte. -/
  | enqueue
  /-- 5: write one output sample. -/
  | output
  /-- 6: busy-wait for the deadline. -/
  | deadline
deriving DecidableEq, Repr

/-- The modulator state (R30, R32 to R35). -/
structure ModState where
  /-- BUFF_I, the write cursor (R32). -/
  buffI : Nat
  /-- OUT_I, the read cursor (R33). -/
  outI : Nat
  /-- MAP, the mapped-symbol buffer (R34). -/
  map : Buffer
  /-- FILT, the filtered-output buffer (R35). -/
  filt : Buffer
deriving DecidableEq, Repr

/-- The demodulator state (R30, R39 to R44, R47, R48). -/
structure DemState where
  /-- WIN, the sample window (R39). -/
  win : Buffer
  /-- WIN_I, the window cursor (R40). -/
  winI : Nat
  /-- Y, the matched-filter output (R41). -/
  y : Buffer
  /-- Z, the scaled matched-filter output (R42). -/
  z : Buffer
  /-- DV (R43). -/
  dv : Bit
  /-- DBIT (R44), a value or no value (R56). -/
  dbit : Option Bit
  /-- DSTATE (R47), written by no operation (log 11). -/
  dstate : DState
  /-- DET_POWER (R48). -/
  detPower : BitVec 16
deriving DecidableEq, Repr

/-- The sequencer state (R30, R52, R53). -/
structure SeqState where
  /-- STEP (R52). -/
  step : TickStep
  /-- CYC, the deadline timer (R53), a value or no value (R56). -/
  cyc : Option (BitVec 32)
deriving DecidableEq, Repr

/-- What an agent does next (R13): the issuer offers a command word, the sequencer or the clock steps, or reset is
asserted (R313, R340). -/
inductive Move where
  | command (w : Word)
  | seq
  | clk
  | reset
deriving DecidableEq, Repr

/-- What the block exchanges with its environment (R20, R104, R312). -/
inductive Event where
  /-- `draw IN()` answered this sample. -/
  | input (v : Sample)
  /-- `draw INBOUND()` answered this. -/
  | inbound (o : Option Byte)
  /-- `emit BIT(b)`. -/
  | bit (b : Bit)
  /-- `emit OUT(v)`. -/
  | output (v : Sample)
  /-- The response of a command. -/
  | response (r : Response)
deriving DecidableEq, Repr

/-- The environment, as plain data (the model's own fields; log 3, log 4, log 10). -/
structure Env where
  /-- The moves made next, oldest first. -/
  agenda : List Move
  /-- Answers of the input transducer already fixed, oldest first. -/
  samples : List Sample
  /-- Answers of the inbound byte source already fixed, oldest first. -/
  inbound : List (Option Byte)
  /-- How many free values have been taken. -/
  draws : Nat
  /-- The events of the run so far, oldest first. -/
  trace : List Event
deriving DecidableEq, Repr

/-- The modulator after reset (R341, R342). -/
def ModState.resetOf (c : Cfg) : ModState where
  buffI := c.nPre
  outI := 0
  map := preambleMap c
  filt := Buffer.noValue c.lFilt

/-- The demodulator after reset (R341). -/
def DemState.resetOf (c : Cfg) : DemState where
  win := Buffer.noValue c.nWin
  winI := 0
  y := Buffer.noValue c.lY
  z := Buffer.noValue c.lY
  dv := false
  dbit := none
  dstate := .noSignal
  detPower := 0

/-- The sequencer after reset (R341). -/
def SeqState.resetState : SeqState where
  step := .startTimer
  cyc := none

/-- An environment that has done nothing and promised nothing (DESIGN CHOICE, log 3, log 4, log 10). -/
def Env.initial : Env where
  agenda := []
  samples := []
  inbound := []
  draws := 0
  trace := []

end Sys2Proof.Machine
end

