-- ==== Sys2Proof/Machine/State.lean ====
section
/-! DEFINITION. The state of the machine: the parameters CFG and MODE, the block's state (10_state.md R30) and its
environment; the named reasons a step can stop; and the reset state. -/
namespace Sys2Proof.Machine

/-- The whole machine: the parameters CFG (R8) and MODE (R12), the block's state (R30) and its environment. -/
structure State where
  /-- CFG, written by no step (R50, R351). -/
  cfg : Cfg
  /-- MODE, written by no step (R12, R311). -/
  mode : Mode
  /-- The modulator state. -/
  mod : ModState
  /-- The demodulator state. -/
  dem : DemState
  /-- FAULT.KIND (R45); bits [15:3] of FAULT are hardwired to zero (log 9). -/
  fault : FaultKind
  /-- The sequencer state. -/
  seq : SeqState
  /-- The environment. -/
  env : Env
deriving DecidableEq, Repr

/-- A model fault (R319(3)): a rule read an element that holds no value (R56; the row of 93_implementation_defined.md
whose treatment is "fault"). Not a hardware fault, which is a next state that writes FAULT (R319(1)). Safe: the
model stops where R57 says no run comes. -/
inductive Fault where
  /-- Raised by MOD_GET_SAMPLE, alone or in tick step 5, where the convolution reads a MAP element without a value. Safe. -/
  | mapNoValue
  /-- Raised by MOD_GET_SAMPLE, alone or in tick step 5, where FILT[OUT_I] holds no value. Safe. -/
  | filtNoValue
  /-- Raised by DEM_FEED_SAMPLE, alone or in tick step 2, where detection reads a WIN element without a value. Safe. -/
  | winNoValue
  /-- Raised by DEM_GET_BIT, alone or in tick step 3, where DV = 1 and DBIT holds no value. Safe. -/
  | dbitNoValue
  /-- Raised by tick step 6 where CYC holds no value. Safe. -/
  | cycNoValue
deriving DecidableEq, Repr

/-- A refusal (R319(2)). -/
inductive Refusal where
  /-- An arm of `exec` that has no meaning yet; no arm of this model raises it. Safe. -/
  | notModelled (mnemonic : String)
  /-- Raised by a step whose command word matches no row of the opcode table (R105). Safe: the hardware's behaviour on
  such a word is specified by no source. -/
  | illegalWord (w : Word) (why : DecodeError)
  /-- Raised by a step that finds a command offered in SCHEDULED mode (R107). Safe. -/
  | commandInScheduledMode
  /-- Raised by every step of a machine whose configuration is not well formed (R10). Safe. -/
  | illFormedConfiguration
  /-- Raised by every step of a machine with a buffer of 2^33 or more elements, "outside the spec" (R133). Safe. -/
  | bufferOutsideSpec
deriving DecidableEq, Repr

/-- The machine of a configuration and a mode right after reset (R341, R343). -/
def State.resetOf (c : Cfg) (m : Mode) : State where
  cfg := c
  mode := m
  mod := .resetOf c
  dem := .resetOf c
  fault := .noFault
  seq := .resetState
  env := .initial

/-- The machine right after reset. Its configuration TV and its mode COMMAND are DESIGN CHOICES (log 1, log 2):
the spec leaves both open; everything else is R341. -/
def State.reset : State := .resetOf .tv .command

end Sys2Proof.Machine
end

