-- ==== Sys2Proof/Machine/Ops.lean ====
section
/-! DEFINITION. The shared operations over the state: writing one part of it, raising a hardware fault
(00_scope.md R19, the block's only exception mechanism: 60_exceptions.md R300, R308, R309), recording an event,
drawing from the environment (R312), and the reset event (70_reset_and_hazards.md R340). -/
namespace Sys2Proof.Machine

namespace State

/-- Writes the modulator state, nothing else. -/
def setMod (s : State) (m : ModState) : State := { s with mod := m }

/-- Writes the demodulator state, nothing else. -/
def setDem (s : State) (d : DemState) : State := { s with dem := d }

/-- Writes the sequencer state, nothing else. -/
def setSeq (s : State) (q : SeqState) : State := { s with seq := q }

/-- Writes the environment, nothing else. -/
def setEnv (s : State) (e : Env) : State := { s with env := e }

/-- `raise Fault(K)`: FAULT.KIND <- K, and nothing else; control stays in the operation (R19, R300). The block has no
trap entry and no return from one (R308, R309), so this is the whole of taking a fault. -/
def raise (s : State) (k : FaultKind) : State := { s with fault := k }

/-- Appends one event to the trace (R20, R312). -/
def emit (s : State) (e : Event) : State := s.setEnv { s.env with trace := s.env.trace ++ [e] }

/-- `pc <- n`: STEP <- n (R20). -/
def goto (s : State) (n : TickStep) : State := s.setSeq { s.seq with step := n }

/-- The environment moves on past its oldest move. -/
def setAgenda (s : State) (a : List Move) : State := s.setEnv { s.env with agenda := a }

/-- One more free value has been taken. -/
def countDraw (s : State) : State := s.setEnv { s.env with draws := s.env.draws + 1 }

/-- `draw IN()` (R312): the oldest answer already fixed, else a free value; recorded as an event. -/
def drawInput (s : State) : Sample × State :=
  match s.env.samples with
  | v :: rest => (v, (s.setEnv { s.env with samples := rest }).emit (.input v))
  | [] => (Config.freeSample s.env.draws, s.countDraw.emit (.input (Config.freeSample s.env.draws)))

/-- `draw INBOUND()` (R312): the oldest answer already fixed, else a free value; recorded as an event. -/
def drawInbound (s : State) : Option Byte × State :=
  match s.env.inbound with
  | o :: rest => (o, (s.setEnv { s.env with inbound := rest }).emit (.inbound o))
  | [] => (Config.freeInbound s.env.draws, s.countDraw.emit (.inbound (Config.freeInbound s.env.draws)))

/-- The reset event (R340, R344): every piece of the block's state takes its reset value; the configuration and the
mode are not state and the environment is not the block's (log 8). -/
def resetEvent (s : State) : State := (State.resetOf s.cfg s.mode).setEnv s.env

end State

/-- The outcomes of a step of this machine. -/
abbrev StepOutcome := Host.Outcome State Fault Refusal

/-- A command completes with its response word (R104), or the model faults (R319(3)). -/
def respond : Except Fault (State × Response) → StepOutcome
  | .ok (s, r) => .next (s.emit (.response r))
  | .error f => .fault f

end Sys2Proof.Machine
end

