-- ==== Sys2Proof/Machine/Operands.lean ====
section
/-! DEFINITION. How operands and responses are formed: the bits of a byte in the order they are enqueued (20_memory.md
R82) and the 16-bit response words (30_encoding.md R104). The operand fields of a command word are in Decode.lean
(R102). -/
namespace Sys2Proof.Machine

/-- The eight bits of a byte, least-significant first (R82, R174). -/
def byteBits (v : Byte) : List Bit := (List.range 8).map (fun i => v.getLsbD i)

/-- false ↔ 0x0000, true ↔ 0x0001 (R14, R104); also zext_16 of a bit (R214). -/
def boolResponse (b : Bool) : Response := if b then 1 else 0

/-- The response of a command that returns nothing (R104). -/
def voidResponse : Response := 0

/-- A Q15 sample as its 16-bit pattern (R104). -/
def sampleResponse (v : Sample) : Response := v

end Sys2Proof.Machine
end

