-- ==== Sys2Proof/Machine/Flags.lean ====
section
/-! DEFINITION. The status outputs, each a pure function of state (10_state.md R51), and the encodings of FAULT
(R45, R46) and DSTATE (R47). The block has no arithmetic flags (R54). -/
namespace Sys2Proof.Machine

/-- RFD = (OUT_I = 0) (R51, R175). -/
def rfd (s : State) : Bool := s.mod.outI == 0

/-- MOD_DV = (BUFF_I = N_BITS) (R51, R176). -/
def modDv (s : State) : Bool := s.mod.buffI == s.cfg.nBits

/-- DEM_DA = (DV = 1) (R51, R213). -/
def demDa (s : State) : Bool := s.dem.dv

/-- The code of FAULT.KIND (R46). -/
def FaultKind.code : FaultKind → BitVec 3
  | .noFault => 0
  | .bufferFull => 1
  | .getSampleWithoutDataValid => 2
  | .demodBufferFull => 3
  | .demodDataNotReady => 4

/-- FAULT as it reads (R45): KIND in bits [2:0], bits [15:3] zero. -/
def faultWord (s : State) : BitVec 16 := (0 : BitVec 13) ++ s.fault.code

/-- The code of DSTATE (R47). -/
def DState.code : DState → BitVec 3
  | .noSignal => 0
  | .preamble => 1
  | .sfd => 2
  | .dataSampling => 3
  | .dataReady => 4

end Sys2Proof.Machine
end

