-- ==== Sys2Proof/Machine/Demodulator.lean ====
section
/-! DEFINITION. The demodulator path (42_demodulator.md): the sample-window FIFO, the detection procedure and the three
commands. The sequencer uses the same operations (30_encoding.md R107). -/
namespace Sys2Proof.Machine

/-- `detect()` on the values of a full window (R211, R212): matched filter, power of the unscaled output, shift, slicer,
DET_POWER, threshold. -/
def detect (c : Cfg) (xs : List Sample) (d : DemState) : DemState :=
  let y := conv xs c.mf
  let p := power y
  let z := shiftRight y Cfg.shift
  let analysed : DemState :=
    { d with y := Buffer.ofValues y, z := Buffer.ofValues z, detPower := slice16 c p }
  if acceptPower c p then { analysed with dbit := some (decideBit z), dv := true } else analysed

/-- WIN[WIN_I] <- v; WIN_I <- WIN_I + 1 (R210). -/
def storeSample (v : Sample) (d : DemState) : DemState :=
  { d with win := Buffer.write d.win d.winI v, winI := d.winI + 1 }

/-- `feed_sample(v)` (R210): dropped while a bit waits; else stored, and the window analysed when it is full. -/
def feedSample (v : Sample) (s : State) : Except Fault State :=
  if s.dem.dv then .ok (s.raise .demodBufferFull)
  else
    let stored := storeSample v s.dem
    if stored.winI = s.cfg.nWin then
      match Buffer.readFirst stored.win s.cfg.nWin with
      | none => .error .winNoValue
      | some xs => .ok (s.setDem { detect s.cfg xs stored with winI := 0 })
    else .ok (s.setDem stored)

/-- `get_bit()` (R214). -/
def getBit (s : State) : Except Fault (State × Bit) :=
  if s.dem.dv then
    match s.dem.dbit with
    | none => .error .dbitNoValue
    | some b => .ok (s.setDem { s.dem with dv := false }, b)
  else .ok (s.raise .demodDataNotReady, false)

/-- DEM_FEED_SAMPLE v (R210). -/
def execDemFeedSample (v : Sample) (s : State) : StepOutcome :=
  respond ((feedSample v s).map (fun t => (t, voidResponse)))

/-- DEM_IS_DA (R213). -/
def execDemIsDa (s : State) : StepOutcome := respond (.ok (s, boolResponse (demDa s)))

/-- DEM_GET_BIT (R214). -/
def execDemGetBit (s : State) : StepOutcome :=
  respond ((getBit s).map (fun r => (r.1, boolResponse r.2)))

end Sys2Proof.Machine
end

