-- ==== Sys2Proof/Machine/Modulator.lean ====
section
/-! DEFINITION. The modulator path (41_modulator.md): the operations and the five commands over them. The sequencer
uses the same operations (30_encoding.md R107). -/
namespace Sys2Proof.Machine

/-- `add_bit(b)` (R173). -/
def addBit (b : Bit) (s : State) : State :=
  if s.mod.buffI = s.cfg.nBits then s.raise .bufferFull
  else s.setMod
    { s.mod with map := writeSlot s.cfg s.mod.buffI b s.mod.map, buffI := s.mod.buffI + 1 }

/-- `add_byte(v)` (R174): `add_bit` of each bit, each with its own fault check. -/
def addByte (v : Byte) (s : State) : State := (byteBits v).foldl (fun s b => addBit b s) s

/-- The first call of a frame computes FILT <- conv(MAP, PF); later calls leave it (R177). -/
def computeFrame (s : State) : Except Fault State :=
  if s.mod.outI = 0 then
    match Buffer.readFirst s.mod.map s.cfg.lMap with
    | some xs => .ok (s.setMod { s.mod with filt := Buffer.ofValues (conv xs s.cfg.pf) })
    | none => .error .mapNoValue
  else .ok s

/-- OUT_I moves to the next sample; after the last one it wraps to 0, BUFF_I returns to N_PRE and FILT holds no value
again (R177, R36). -/
def advanceOut (s : State) : State :=
  if s.mod.outI + 1 = s.cfg.lFilt then
    s.setMod { s.mod with outI := 0, buffI := s.cfg.nPre, filt := Buffer.noValue s.cfg.lFilt }
  else s.setMod { s.mod with outI := s.mod.outI + 1 }

/-- `get_sample()` (R177). -/
def getSample (s : State) : Except Fault (State × Sample) :=
  if s.mod.buffI ≠ s.cfg.nBits then .ok (s.raise .getSampleWithoutDataValid, 0)
  else
    match computeFrame s with
    | .error f => .error f
    | .ok s1 =>
      match Buffer.read s1.mod.filt s1.mod.outI with
      | none => .error .filtNoValue
      | some v => .ok (advanceOut s1, v)

/-- MOD_ADD_BIT b (R173). -/
def execModAddBit (b : Bit) (s : State) : StepOutcome := respond (.ok (addBit b s, voidResponse))

/-- MOD_ADD_BYTE v (R174). -/
def execModAddByte (v : Byte) (s : State) : StepOutcome := respond (.ok (addByte v s, voidResponse))

/-- MOD_IS_RFD (R175). -/
def execModIsRfd (s : State) : StepOutcome := respond (.ok (s, boolResponse (rfd s)))

/-- MOD_IS_DV (R176). -/
def execModIsDv (s : State) : StepOutcome := respond (.ok (s, boolResponse (modDv s)))

/-- MOD_GET_SAMPLE (R177). -/
def execModGetSample (s : State) : StepOutcome :=
  respond ((getSample s).map (fun r => (r.1, sampleResponse r.2)))

end Sys2Proof.Machine
end

