-- ==== Sys2Proof/Machine/Status.lean ====
section
/-! DEFINITION. The status and diagnostic accessors (43_status.md). Reading changes nothing (20_memory.md R86). -/
namespace Sys2Proof.Machine

/-- RD_FAULT (R250). -/
def execRdFault (s : State) : StepOutcome := respond (.ok (s, faultWord s))

/-- RD_DETPWR (R251). -/
def execRdDetpwr (s : State) : StepOutcome := respond (.ok (s, s.dem.detPower))

end Sys2Proof.Machine
end

