-- ==== Sys2Proof/Machine/Dispatch.lean ====
section
/-! DEFINITION. One command's effect: one arm per constructor of Instr. -/
namespace Sys2Proof.Machine

def exec (i : Instr) (s : State) : Host.Outcome State Fault Refusal :=
  match i with
  | .modAddBit b => Sys2Proof.Machine.execModAddBit b s
  | .modAddByte v => Sys2Proof.Machine.execModAddByte v s
  | .modIsRfd => Sys2Proof.Machine.execModIsRfd s
  | .modIsDv => Sys2Proof.Machine.execModIsDv s
  | .modGetSample => Sys2Proof.Machine.execModGetSample s
  | .demFeedSample v => Sys2Proof.Machine.execDemFeedSample v s
  | .demIsDa => Sys2Proof.Machine.execDemIsDa s
  | .demGetBit => Sys2Proof.Machine.execDemGetBit s
  | .rdFault => Sys2Proof.Machine.execRdFault s
  | .rdDetpwr => Sys2Proof.Machine.execRdDetpwr s

end Sys2Proof.Machine
end

