-- ==== Sys2Proof/Machine/Sequencer.lean ====
section
/-! DEFINITION. The real-time sequencer's six tick steps and the clock's step (44_scheduler.md R260 to R268). Each is one
indivisible step (R84). -/
namespace Sys2Proof.Machine

/-- The number of a tick step (R52, R260). -/
def TickStep.number : TickStep → Nat
  | .startTimer => 1
  | .input => 2
  | .drain => 3
  | .enqueue => 4
  | .output => 5
  | .deadline => 6

/-- Step 1 (R261): CYC <- 0. -/
def seqStartTimer (s : State) : StepOutcome :=
  .next ((s.setSeq { s.seq with cyc := some 0 }).goto .input)

/-- Step 2 (R262): read one input sample and feed it. The passthrough sink is outside the block (D31). -/
def seqInput (s : State) : StepOutcome :=
  match feedSample s.drawInput.1 s.drawInput.2 with
  | .error f => .fault f
  | .ok t => .next (t.goto .drain)

/-- Step 3 (R263): drain one decoded bit if there is one. -/
def seqDrain (s : State) : StepOutcome :=
  if demDa s then
    match getBit s with
    | .error f => .fault f
    | .ok (t, b) => .next ((t.emit (.bit b)).goto .enqueue)
  else .next (s.goto .enqueue)

/-- Step 4 (R264): the inbound source is polled only when the modulator is ready (D21). -/
def seqEnqueue (s : State) : StepOutcome :=
  if rfd s then
    match s.drawInbound.1 with
    | some v => .next ((addByte v s.drawInbound.2).goto .output)
    | none => .next (s.drawInbound.2.goto .output)
  else .next (s.goto .output)

/-- Step 5 (R265): one output sample, IDLE_LEVEL when no frame is there. -/
def seqOutput (s : State) : StepOutcome :=
  if modDv s then
    match getSample s with
    | .error f => .fault f
    | .ok (t, v) => .next ((t.emit (.output v)).goto .deadline)
  else .next ((s.emit (.output Cfg.idleLevel)).goto .deadline)

/-- Step 6 (R266): the next tick starts when CYC ≥ TICK_CYCLES, an unsigned comparison; until then nothing changes. An
overrun is not recorded (R267). -/
def seqDeadline (s : State) : StepOutcome :=
  match s.seq.cyc with
  | none => .fault .cycNoValue
  | some n => if n.toNat ≥ s.cfg.tickCycles then .next (s.goto .startTimer) else .next s

/-- One step of the sequencer: the step STEP names (R260). -/
def seqStep (s : State) : StepOutcome :=
  match s.seq.step with
  | .startTimer => seqStartTimer s
  | .input => seqInput s
  | .drain => seqDrain s
  | .enqueue => seqEnqueue s
  | .output => seqOutput s
  | .deadline => seqDeadline s

/-- One step of the clock CLK (R268): CYC <- (CYC + 1) mod 2^32. A CYC that holds no value still holds none (log 6). -/
def clkStep (s : State) : State := s.setSeq { s.seq with cyc := s.seq.cyc.map (· + 1) }

end Sys2Proof.Machine
end

