-- ==== Sys2Proof/Machine/Agents.lean ====
section
/-! DEFINITION. Who moves next and what a move does (00_scope.md R12, R13; 30_encoding.md R107; 60_exceptions.md R313,
R319): the command issuer, the sequencer, the clock, and reset. -/
namespace Sys2Proof.Machine

/-- The issuer offers a word (R105 to R107): refused in SCHEDULED mode, refused if illegal, else the command runs. -/
def offerCommand (w : Word) (s : State) : StepOutcome :=
  match s.mode with
  | .scheduled => .refused .commandInScheduledMode
  | .command =>
    match decode w with
    | .error e => .refused (.illegalWord w e)
    | .ok i => exec i s

/-- What a move does. The sequencer and the clock act in SCHEDULED mode only (R12, R13); in COMMAND mode a move of
theirs changes nothing (log 7). -/
def performMove (m : Move) (s : State) : StepOutcome :=
  match m with
  | .command w => offerCommand w s
  | .reset => .next s.resetEvent
  | .seq =>
    match s.mode with
    | .scheduled => seqStep s
    | .command => .next s
  | .clk =>
    match s.mode with
    | .scheduled => .next (clkStep s)
    | .command => .next s

/-- A step where the agenda says nothing: in COMMAND mode the block waits for a command (R343); in SCHEDULED mode the
sequencer or the clock moves, which of them a free value says (R268, log 3). -/
def unscheduledMove (s : State) : StepOutcome :=
  match s.mode with
  | .command => .next s
  | .scheduled => performMove (if Config.freeSeqMoves s.env.draws then .seq else .clk) s.countDraw

/-- One step of whichever agent moves next. -/
def agentStep (s : State) : StepOutcome :=
  match s.env.agenda with
  | m :: rest => performMove m (s.setAgenda rest)
  | [] => unscheduledMove s

/-- A configuration that is not well formed (R10), or outside the spec (R133), is refused before anything runs
(R319(2)). -/
def guardedStep (s : State) : StepOutcome :=
  if s.cfg.WellFormed then
    if s.cfg.BuffersInSpec then agentStep s else .refused .bufferOutsideSpec
  else .refused .illFormedConfiguration

end Sys2Proof.Machine
end

