-- ==== Sys2Proof/Machine/Step.lean ====
section
/-! DEFINITION. One step of the machine, and the placing of a command word where the next step takes it. -/
namespace Sys2Proof.Machine

/-- One step. -/
def step (s : State) : Host.Outcome State Fault Refusal := guardedStep s

/-- `s` with the command word next on the agenda, in the mode that takes commands (R107), so that the very next step
runs it (log 13). -/
def State.withFetchWord (s : State) (nbits w : Nat) : State :=
  { s.setAgenda (.command (tableWord nbits w) :: s.env.agenda) with mode := .command }

end Sys2Proof.Machine
end

