-- ==== Sys2Proof/Machine/Assembler.lean ====
section
/-! DEFINITION. The assembly syntax (30_encoding.md R108), on lists of characters: one command per line, `;` starts a comment,
an operand outside its range is an assembly error, never a wrapped value. What R108 leaves open (white space, leading zeros,
the case of hexadecimal digits, empty lines) is log 17. -/
namespace Sys2Proof

/-- Why a line does not assemble (R108). -/
inductive AsmError where
  | unknownMnemonic
  | missingOperand
  | extraOperand
  | malformedOperand
  | operandOutOfRange
deriving DecidableEq, Repr

/-- A number as written: a decimal integer or a hexadecimal pattern. -/
inductive Numeral where
  | decimal (v : Int)
  | hex (v : Nat)
deriving DecidableEq, Repr

/-- Drops a comment: everything from the first `;` (R108). -/
def stripComment : List Char → List Char
  | [] => []
  | c :: rest => if c = ';' then [] else c :: stripComment rest

/-- A word that has ended, if it has characters. -/
def endToken (cur : List Char) : List (List Char) := if cur = [] then [] else [cur]

/-- The words of a line, with the characters read so far of the current one. -/
def tokensFrom : List Char → List Char → List (List Char)
  | cur, [] => endToken cur
  | cur, c :: rest =>
    if c.isWhitespace then endToken cur ++ tokensFrom [] rest else tokensFrom (cur ++ [c]) rest

/-- The digits of a hexadecimal pattern, each at the index of its value; the first ten are the decimal digits (R108). -/
def digitSigns : List Char := "0123456789ABCDEF".toList

/-- The value of a decimal digit. -/
def decDigit (c : Char) : Option Nat := (digitSigns.take 10).idxOf? c

/-- The value of a hexadecimal digit, a small letter read as its capital (log 17). -/
def hexDigit (c : Char) : Option Nat := digitSigns.idxOf? c.toUpper

/-- The value of a run of digits after those read so far. -/
def digitsFrom (digit : Char → Option Nat) (base : Nat) : Nat → List Char → Option Nat
  | acc, [] => some acc
  | acc, c :: rest =>
    match digit c with
    | some d => digitsFrom digit base (acc * base + d) rest
    | none => none

/-- A number: at least one digit. -/
def digitsValue (digit : Char → Option Nat) (base : Nat) : List Char → Option Nat
  | [] => none
  | c :: rest => digitsFrom digit base 0 (c :: rest)

/-- `0x` and hexadecimal digits, or an optional `-` and decimal digits (R108). -/
def parseNumeral : List Char → Option Numeral
  | '0' :: 'x' :: rest => (digitsValue hexDigit 16 rest).map .hex
  | '-' :: rest => (digitsValue decDigit 10 rest).map (fun n => .decimal (-(n : Int)))
  | cs => (digitsValue decDigit 10 cs).map (fun n => .decimal (n : Int))

/-- The bit operand: `0` or `1` (R108). Any other number, `01` and `0x1` too, is out of range (log 17). -/
def parseBit (t : List Char) : Except AsmError Bit :=
  if t = ['0'] then .ok false
  else if t = ['1'] then .ok true
  else
    match parseNumeral t with
    | some _ => .error .operandOutOfRange
    | none => .error .malformedOperand

/-- The byte operand: 0 to 255, or 0x00 to 0xFF (R108). -/
def parseByte (t : List Char) : Except AsmError Byte :=
  match parseNumeral t with
  | none => .error .malformedOperand
  | some (.decimal v) => if 0 ≤ v ∧ v ≤ 255 then .ok (BitVec.ofInt 8 v) else .error .operandOutOfRange
  | some (.hex v) => if v ≤ 0xFF then .ok (BitVec.ofNat 8 v) else .error .operandOutOfRange

/-- The sample operand: −32768 to 32767, or 0x0000 to 0xFFFF (R108). -/
def parseSample (t : List Char) : Except AsmError Sample :=
  match parseNumeral t with
  | none => .error .malformedOperand
  | some (.decimal v) =>
    if -32768 ≤ v ∧ v ≤ 32767 then .ok (BitVec.ofInt 16 v) else .error .operandOutOfRange
  | some (.hex v) => if v ≤ 0xFFFF then .ok (BitVec.ofNat 16 v) else .error .operandOutOfRange

/-- A command with no operand (R108: "for the other commands nothing"). -/
def withoutOperand (i : Instr) : List (List Char) → Except AsmError Instr
  | [] => .ok i
  | _ :: _ => .error .extraOperand

/-- A command with one operand. -/
def withOperand {α : Type} (parse : List Char → Except AsmError α) (build : α → Instr) :
    List (List Char) → Except AsmError Instr
  | [] => .error .missingOperand
  | [t] => (parse t).map build
  | _ :: _ :: _ => .error .extraOperand

/-- The mnemonics and what follows each (R101, R108). -/
def asmTable : List (String × (List (List Char) → Except AsmError Instr)) :=
  [ ("MOD_ADD_BIT", withOperand parseBit .modAddBit),
    ("MOD_ADD_BYTE", withOperand parseByte .modAddByte),
    ("MOD_IS_RFD", withoutOperand .modIsRfd),
    ("MOD_IS_DV", withoutOperand .modIsDv),
    ("MOD_GET_SAMPLE", withoutOperand .modGetSample),
    ("DEM_FEED_SAMPLE", withOperand parseSample .demFeedSample),
    ("DEM_IS_DA", withoutOperand .demIsDa),
    ("DEM_GET_BIT", withoutOperand .demGetBit),
    ("RD_FAULT", withoutOperand .rdFault),
    ("RD_DETPWR", withoutOperand .rdDetpwr) ]

/-- One line: a command, or nothing where the line holds only white space and a comment (R108). -/
def parseLine (line : List Char) : Except AsmError (Option Instr) :=
  match tokensFrom [] (stripComment line) with
  | [] => .ok none
  | m :: operands =>
    match asmTable.find? (fun r => r.1.toList == m) with
    | some r => (r.2 operands).map some
    | none => .error .unknownMnemonic

/-- A program, line by line, to its command words in order (R108). -/
def assemble : List (List Char) → Except AsmError (List Word)
  | [] => .ok []
  | line :: rest =>
    match parseLine line, assemble rest with
    | .error e, _ => .error e
    | .ok _, .error e => .error e
    | .ok none, .ok ws => .ok ws
    | .ok (some i), .ok ws => .ok (encode i :: ws)

/-- The hexadecimal digit of a value below 16. -/
def hexChar (n : Nat) : Char := digitSigns.getD n '0'

/-- The `0x` pattern of a value, `digits` digits long. -/
def hexPattern (digits n : Nat) : List Char :=
  '0' :: 'x' :: (List.range digits).reverse.map (fun k => hexChar (n / 16 ^ k % 16))

/-- The operand of a command as text, if it has one. -/
def operandText : Instr → List Char
  | .modAddBit b => if b then ['1'] else ['0']
  | .modAddByte v => hexPattern 2 v.toNat
  | .demFeedSample v => hexPattern 4 v.toNat
  | .modIsRfd | .modIsDv | .modGetSample | .demIsDa | .demGetBit | .rdFault | .rdDetpwr => []

/-- A command as a line of assembly (R108). -/
def printLine (i : Instr) : List Char :=
  match operandText i with
  | [] => (mnemonicOf i).toList
  | c :: rest => (mnemonicOf i).toList ++ ' ' :: c :: rest

end Sys2Proof
end

