-- ==== Sys2Proof/Safety.lean ====
section
/-! DEFINITION. The terms claims use: the invariant of the block's state (10_state.md R36, R38, R40, R44, R56, R57; 20_memory.md
R81), the invariant of SCHEDULED mode (44_scheduler.md R271), what a safe outcome is, and runs. -/
namespace Sys2Proof.Machine

/-- The modulator part of the invariant (R34 to R38, R81). -/
structure ModState.Inv (c : Cfg) (m : ModState) : Prop where
  /-- MAP has L_MAP elements (R81). -/
  mapLength : m.map.length = c.lMap
  /-- BUFF_I ≥ N_PRE (R38). -/
  buffLow : c.nPre ≤ m.buffI
  /-- BUFF_I never exceeds the capacity (R32, R38). -/
  buffHigh : m.buffI ≤ c.nBits
  /-- 0 ≤ OUT_I ≤ L_FILT − 1 (R33, R38). -/
  outRange : m.outI < c.lFilt
  /-- OUT_I ≠ 0 implies BUFF_I = N_BITS (R38). -/
  streaming : m.outI ≠ 0 → m.buffI = c.nBits
  /-- Slots 0..BUFF_I−1 of MAP hold values (R38). -/
  mapFilled : ∀ i, i < m.buffI * c.nSpb → (Buffer.read m.map i).isSome
  /-- Slots 0..N_PRE−1 of MAP hold the preamble (R38, R179). -/
  preambleKept : ∀ i, i < c.nPre * c.nSpb → Buffer.read m.map i = Buffer.read (preambleMap c) i
  /-- FILT holds no value outside a frame (R36). -/
  filtIdle : m.outI = 0 → m.filt = Buffer.noValue c.lFilt
  /-- FILT holds the frame's convolution while it streams (R35, R36). -/
  filtFrame : m.outI ≠ 0 →
    (Buffer.readFirst m.map c.lMap).map (fun xs => Buffer.ofValues (conv xs c.pf)) = some m.filt

/-- The demodulator part of the invariant (R39 to R44, R47, R81). -/
structure DemState.Inv (c : Cfg) (d : DemState) : Prop where
  /-- WIN has N_WIN elements (R81). -/
  winLength : d.win.length = c.nWin
  /-- WIN_I is in 0..N_WIN−1 between operations (R40). -/
  winRange : d.winI < c.nWin
  /-- The samples of the current window are there (R57). -/
  winFilled : ∀ i, i < d.winI → (Buffer.read d.win i).isSome
  /-- Y has L_Y elements (R81). -/
  yLength : d.y.length = c.lY
  /-- Z has L_Y elements (R81). -/
  zLength : d.z.length = c.lY
  /-- DV = 1 only after an accepted window wrote DBIT (R44). -/
  dbitHeld : d.dv = true → d.dbit.isSome
  /-- DSTATE is hardwired to NO_SIGNAL (R47). -/
  dstateHard : d.dstate = .noSignal

/-- The invariant of the machine: an accepted configuration, both paths' invariants, and CYC written before step 6 can
read it (R57). -/
structure State.Inv (s : State) : Prop where
  accepted : s.cfg.Accepted
  modInv : s.mod.Inv s.cfg
  demInv : s.dem.Inv s.cfg
  /-- Only step 1 of a tick finds CYC without a value (R53, R57). -/
  cycWritten : s.seq.step ≠ .startTimer → s.seq.cyc.isSome

/-- The invariant of SCHEDULED mode (R271). -/
structure State.ScheduledInv (s : State) : Prop where
  /-- The block runs in SCHEDULED mode. -/
  scheduled : s.mode = .scheduled
  /-- A DV set in step 2 is cleared in step 3 of the same tick (R271 (1)). -/
  bitDrained : s.dem.dv = true → s.seq.step = .drain
  /-- A full buffer that nothing streams exists only between steps 4 and 5 of a tick (R271: at step 4 with OUT_I = 0 always
  BUFF_I < N_BITS). -/
  frameStarts : s.mod.outI = 0 → s.mod.buffI = s.cfg.nBits → s.seq.step = .output
  /-- BUFFER_FULL is the only fault this mode raises (R271). -/
  faultKinds : s.fault = .noFault ∨ s.fault = .bufferFull

/-- The invariant of SCHEDULED mode where the payload is a multiple of eight bits: no byte is ever split and no fault is ever
raised (R271, 41_modulator.md R181). -/
structure State.WholeBytesInv (s : State) : Prop where
  payload : (s.cfg.nBits - s.cfg.nPre) % 8 = 0
  wholeBytes : (s.mod.buffI - s.cfg.nPre) % 8 = 0
  noFault : s.fault = .noFault

/-- A step that answers no model fault (R319(3)); a refusal is the environment's doing, not the block's. -/
def Safe : StepOutcome → Prop
  | .next _ => True
  | .refused _ => True
  | .fault _ => False

/-- Commands executed one after another (COMMAND mode's order, 20_memory.md R87). -/
def execAll : List Instr → State → StepOutcome
  | [], s => .next s
  | i :: rest, s =>
    match exec i s with
    | .next t => execAll rest t
    | .fault f => .fault f
    | .refused r => .refused r

/-- The next state of an outcome, if it has one. -/
def nextState : StepOutcome → Option State
  | .next t => some t
  | .fault _ => none
  | .refused _ => none

/-- Whether an event is an answer of the input transducer. -/
def Event.isInput : Event → Bool
  | .input _ => true
  | .inbound _ | .bit _ | .output _ | .response _ => false

/-- Whether an event is a write to the output transducer. -/
def Event.isOutput : Event → Bool
  | .output _ => true
  | .input _ | .inbound _ | .bit _ | .response _ => false

/-- How many input samples a state's trace holds more than output samples in steps 3 to 5 of a tick, and elsewhere (R270). -/
def TickStep.inputsAhead : TickStep → Nat
  | .startTimer => 0
  | .input => 0
  | .drain => 1
  | .enqueue => 1
  | .output => 1
  | .deadline => 0

/-- One input read per output write (R270): the trace holds as many reads as writes, and one more between the read of step 2
and the write of step 5. -/
def State.ReadsMatchWrites (s : State) : Prop :=
  s.env.trace.countP Event.isInput = s.env.trace.countP Event.isOutput + s.seq.step.inputsAhead

/-- A state with FAULT and DET_POWER at their reset values: what is left when the two observation registers are hidden (R252). -/
def State.blind (s : State) : State := { s with fault := .noFault, dem := { s.dem with detPower := 0 } }

/-- A state with CYC hidden: what is left when the deadline timer is not looked at (R275). -/
def State.timeless (s : State) : State := { s with seq := { s.seq with cyc := none } }

/-- A state whose trace has one response more (R104). -/
def State.answered (s : State) (r : Response) : State :=
  { s with env := { s.env with trace := s.env.trace ++ [.response r] } }

end Sys2Proof.Machine
end

