-- ==== Sys2Proof/Certificates/Slice0/Obligations.lean ====
section
/-! DEFINITION. The statements for the provers. Each holds for every configuration unless it says otherwise: the configuration is
part of the state. -/
open Sys2Proof Sys2Proof.Machine

/-! ## Encoding -/

/-- Decoding an encoded command gives it back, with every operand at every value (30_encoding.md sections 1 and 2). -/
def Obligations.DecodeOfEncodeIsTheCommand : Prop :=
  ∀ i : Instr, i.wellFormed = true → decode (encode i) = .ok i

/-- A word that decodes is the encoding of what it decodes to: each word has one meaning. -/
def Obligations.EncodeOfDecodeIsTheWord : Prop :=
  ∀ (w : Word) (i : Instr), decode w = .ok i → encode i = w

/-- R105: a word is a command iff it matches exactly one row; at most one matches; a command has an assigned OP, a zero RSV field
and zeros where its row fixes DATA; every other word is refused. -/
def Obligations.WordIsCommandIffOneRowMatches : Prop :=
  ∀ w : Word,
    (opcodeTable.filter (fun r => w &&& r.mask == r.pattern)).length ≤ 1 ∧
    ((∃ i, decode w = .ok i) ↔ (opcodeTable.filter (fun r => w &&& r.mask == r.pattern)).length = 1) ∧
    (∀ i, decode w = .ok i → opField w ∈ assignedOps ∧ rsvField w = 0 ∧
      ∀ r ∈ opcodeTable, w &&& r.mask = r.pattern → dataField w &&& r.mask.extractLsb' 0 16 = 0) ∧
    ((¬ ∃ i, decode w = .ok i) → ∀ (s : State) (rest : List Move), s.cfg.Accepted → s.mode = .command →
      s.env.agenda = .command w :: rest → ∃ e, step s = .refused (.illegalWord w e))

/-- Words written out from R103, one or more per family, decode to their commands; neighbours that R105 calls illegal do not. -/
def Obligations.SpecWordsDecode : Prop :=
  decode 0x01000001 = .ok (.modAddBit true) ∧ decode 0x020000A5 = .ok (.modAddByte 0xA5) ∧
  decode 0x05000000 = .ok .modGetSample ∧ decode 0x1100FFFF = .ok (.demFeedSample (-1)) ∧
  decode 0x13000000 = .ok .demGetBit ∧ decode 0x21000000 = .ok .rdFault ∧ decode 0x22000000 = .ok .rdDetpwr ∧
  decode 0x01000002 = .error (.dataNotZero 0x01) ∧ decode 0x11010000 = .error (.reservedNotZero 0x11) ∧
  decode 0x06000000 = .error (.unassignedOp 0x06)

/-- R108: a command printed as a line of assembly assembles to itself. The print form (fixed-length hexadecimal operands) is the
model's choice, log 17. -/
def Obligations.PrintedLineAssemblesToItsCommand : Prop :=
  ∀ i : Instr, parseLine (printLine i) = .ok (some i)

/-- R108: "An operand outside its range is an assembly error, not a wrapped value." The last clause is the model's choice, log 17: the
bit operand is exactly `0` or `1`, so that every other number, `01`, `-0` and `0x1` too, counts as out of range. -/
def Obligations.OperandOutOfRangeIsAssemblyError : Prop :=
  ∀ t : List Char,
    (∀ v : Int, parseNumeral t = some (.decimal v) → v < 0 ∨ 255 < v → parseByte t = .error .operandOutOfRange) ∧
    (∀ v : Nat, parseNumeral t = some (.hex v) → 0xFF < v → parseByte t = .error .operandOutOfRange) ∧
    (∀ v : Int, parseNumeral t = some (.decimal v) → v < -32768 ∨ 32767 < v →
      parseSample t = .error .operandOutOfRange) ∧
    (∀ v : Nat, parseNumeral t = some (.hex v) → 0xFFFF < v → parseSample t = .error .operandOutOfRange) ∧
    (∀ n, parseNumeral t = some n → t ≠ ['0'] → t ≠ ['1'] → parseBit t = .error .operandOutOfRange)

/-! ## A step -/

/-- A step in COMMAND mode whose agenda offers a word runs exactly the decoded command, on the state with that word taken. The
agenda is the model's own, log 3. -/
def Obligations.StepRunsTheDecodedCommand : Prop :=
  ∀ (s : State) (w : Word) (rest : List Move) (i : Instr), s.cfg.Accepted → s.mode = .command →
    s.env.agenda = .command w :: rest → decode w = .ok i →
    step s = exec i { s with env := { s.env with agenda := rest } }

/-- R107 (first and last sentence): a command offered in SCHEDULED mode is refused, whatever the word. -/
def Obligations.CommandInScheduledModeIsRefused : Prop :=
  ∀ (s : State) (w : Word) (rest : List Move), s.cfg.Accepted → s.mode = .scheduled →
    s.env.agenda = .command w :: rest → step s = .refused .commandInScheduledMode

/-- R10: the model refuses exactly the configurations that are not well formed, and does so at every step. -/
def Obligations.IllFormedConfigurationIsRefused : Prop :=
  ∀ s : State, step s = .refused .illFormedConfiguration ↔
    ¬ (s.cfg.nSpb ≥ 1 ∧ s.cfg.nBits ≥ 1 ∧ s.cfg.pf.length ≥ 1 ∧ s.cfg.mf.length ≥ 1 ∧
      (s.cfg.nPre = 0 ∨ (2 ≤ s.cfg.nPre ∧ s.cfg.nPre ≤ s.cfg.nBits - 1)) ∧ s.cfg.pwrLo ≤ 48 ∧
      s.cfg.tickCycles ≥ 1 ∧ s.cfg.tickCycles < 4294967296)

/-- Every command leaves the parameters, the sequencer, the agenda and the environment's answers alone and gives exactly one
response (R52, R53, R87, R104). -/
def Obligations.CommandGivesOneResponseAndLeavesTheSequencer : Prop :=
  ∀ (i : Instr) (s t : State), exec i s = .next t →
    t.cfg = s.cfg ∧ t.mode = s.mode ∧ t.seq = s.seq ∧
    ∃ r : Response, t.env = { s.env with trace := s.env.trace ++ [.response r] }

/-! ## Reset -/

/-- R341, R342: the reset value of every register and buffer, for every well-formed configuration and both modes. -/
def Obligations.ResetLeavesTheResetValues : Prop :=
  ∀ (c : Cfg) (m : Mode), c.WellFormed →
    (State.resetOf c m).mod.buffI = c.nPre ∧ (State.resetOf c m).mod.outI = 0 ∧
    (State.resetOf c m).dem.winI = 0 ∧ (State.resetOf c m).dem.dv = false ∧
    faultWord (State.resetOf c m) = 0 ∧ (State.resetOf c m).dem.dstate.code = 0 ∧
    (State.resetOf c m).dem.detPower = 0 ∧ (State.resetOf c m).seq.step.number = 1 ∧
    (State.resetOf c m).dem.dbit = none ∧ (State.resetOf c m).seq.cyc = none ∧
    (∀ j k, j < c.nPre → k < c.nSpb →
      Buffer.read (State.resetOf c m).mod.map (j * c.nSpb + k) =
        some (if c.mapMode = .hold ∨ k = 0 then (if preambleBit c j then c.levelHigh else c.levelLow) else 0)) ∧
    (∀ i, c.nPre * c.nSpb ≤ i → Buffer.read (State.resetOf c m).mod.map i = none) ∧
    (∀ i, Buffer.read (State.resetOf c m).mod.filt i = none ∧ Buffer.read (State.resetOf c m).dem.win i = none ∧
      Buffer.read (State.resetOf c m).dem.y i = none ∧ Buffer.read (State.resetOf c m).dem.z i = none) ∧
    (State.resetOf c m).mod.map.length = c.nBits * c.nSpb ∧
    (State.resetOf c m).mod.filt.length = c.nBits * c.nSpb + c.pf.length - 1 ∧
    (State.resetOf c m).dem.win.length = c.nSpb ∧
    (State.resetOf c m).dem.y.length = c.nSpb + c.mf.length - 1 ∧
    (State.resetOf c m).dem.z.length = c.nSpb + c.mf.length - 1

/-- R340, R344: a reset asserted at any later point puts every piece of the block's state at its reset value and keeps the
configuration and the mode. That the environment's record survives is the model's choice, log 8. -/
def Obligations.ResetMayBeAssertedAgain : Prop :=
  ∀ (s : State) (rest : List Move), s.cfg.Accepted → s.env.agenda = .reset :: rest →
    step s = .next { State.resetOf s.cfg s.mode with env := { s.env with agenda := rest } }

/-- R172: the preamble starts at PRE_FIRST, alternates, and its last bit, the start-of-frame delimiter, inverts the alternation:
it equals the bit before it. -/
def Obligations.PreambleAlternatesUntilTheDelimiter : Prop :=
  ∀ c : Cfg, 2 ≤ c.nPre →
    preambleBit c 0 = c.preFirst ∧
    (∀ j, j + 2 < c.nPre → preambleBit c (j + 1) = !preambleBit c j) ∧
    preambleBit c (c.nPre - 1) = preambleBit c (c.nPre - 2)

/-! ## Q15 arithmetic -/

/-- R130, R131: `sat16` clamps to the int16 range and is the identity inside it; `asr` rounds toward minus infinity. -/
def Obligations.Sat16ClampsAndAsrRoundsDown : Prop :=
  (∀ v : Int, sat16 v = (if 32767 < v then 32767 else if v < -32768 then -32768 else v) ∧
    (-32768 ≤ v → v ≤ 32767 → sat16 v = v) ∧ sat16 32768 = 32767 ∧ sat16 (-32769) = -32768 ∧ sat16 65534 = 32767) ∧
  (∀ (v : Int) (n : Nat), asr v n = ⌊(v : ℚ) / 2 ^ n⌋ ∧
    asr v n * 2 ^ n ≤ v ∧ v < (asr v n + 1) * 2 ^ n ∧ asr (-1) n = -1 ∧ asr v 0 = v ∧ asr (-17) 4 = -2 ∧ asr (-16) 4 = -1)

/-- R134: `conv` has length Nx + Nh − 1 and each output is the exact sum of R133 over k from max(0, n−Nh+1) to min(n, Nx−1),
shifted right by 15 with floor, then saturated. -/
def Obligations.ConvIsTheSaturatedShiftedSum : Prop :=
  ∀ x h : List Sample, 1 ≤ x.length → 1 ≤ h.length →
    (conv x h).length = x.length + h.length - 1 ∧
    ∀ n, n < x.length + h.length - 1 →
      ((conv x h)[n]?).map BitVec.toInt =
        some (max (-32768) (min (Int.fdiv (∑ k ∈ Finset.Icc (n + 1 - h.length) (min n (x.length - 1)),
          (x.getD k 0).toInt * (h.getD (n - k) 0).toInt) 32768) 32767))

/-- R133: every accumulated sum of this block fits 64 signed bits when fewer than 2^33 terms are summed. -/
def Obligations.AccumulatorsFitIn64Bits : Prop :=
  ∀ (x h : List Sample) (n : Nat), x.length < 2 ^ 33 → h.length < 2 ^ 33 →
    |convAcc x h n| < 2 ^ 63 ∧ |power x| < 2 ^ 63

/-- R137: `power` is the exact sum of squares, nonnegative, and at most 2^30 per element. -/
def Obligations.PowerIsTheSumOfSquares : Prop :=
  ∀ y : List Sample, power y = (y.map (fun v => v.toInt * v.toInt)).sum ∧ 0 ≤ power y ∧
    power y ≤ (y.length : Int) * 2 ^ 30

/-- R138, R139: the slice is the quotient by 2^PWR_LO modulo 2^16, read as a signed 16-bit value, and so the quotient itself while
the power is below 2^(PWR_LO+15). -/
def Obligations.SliceIsTheSignedQuotient : Prop :=
  ∀ (c : Cfg) (p : Int), 0 ≤ p →
    ((slice16 c p).toNat : Int) = p / 2 ^ c.pwrLo % 65536 ∧
    (slice16 c p).toInt = (if p / 2 ^ c.pwrLo % 65536 < 32768 then p / 2 ^ c.pwrLo % 65536
      else p / 2 ^ c.pwrLo % 65536 - 65536) ∧
    (p < 2 ^ (c.pwrLo + 15) → (slice16 c p).toInt = p / 2 ^ c.pwrLo)

/-- R140, R141: the normalisation shift divides every element by 16 with floor, and the result lies in [−2048, 2047]. -/
def Obligations.NormalisationShiftDividesBySixteen : Prop :=
  ∀ y : List Sample, (shiftRight y 4).length = y.length ∧
    ∀ (i : Nat) (v : Sample), y[i]? = some v →
      ∃ z, (shiftRight y 4)[i]? = some z ∧ z.toInt = Int.fdiv v.toInt 16 ∧ -2048 ≤ z.toInt ∧ z.toInt ≤ 2047

/-- R142, R143: `minv` and `maxv` are the least and the greatest element. -/
def Obligations.MinvAndMaxvAreTheExtremes : Prop :=
  ∀ z : List Sample, z ≠ [] →
    (∃ v ∈ z, v.toInt = minv z) ∧ (∀ v ∈ z, minv z ≤ v.toInt) ∧
    (∃ v ∈ z, v.toInt = maxv z) ∧ (∀ v ∈ z, v.toInt ≤ maxv z)

/-- R145: the slicer answers 1 iff the greatest element strictly exceeds the magnitude of the least; an array whose elements are
all equal, or none of which is positive, decodes 0. -/
def Obligations.SlicerComparesThePeaksStrictly : Prop :=
  ∀ z : List Sample, z ≠ [] →
    (decideBit z = true ↔
      ∃ hi ∈ z, ∃ lo ∈ z, (∀ v ∈ z, lo.toInt ≤ v.toInt ∧ v.toInt ≤ hi.toInt) ∧ |lo.toInt| < hi.toInt) ∧
    ((∀ v ∈ z, ∀ u ∈ z, v = u) → decideBit z = false) ∧ ((∀ v ∈ z, v.toInt ≤ 0) → decideBit z = false)

/-- R146: the detector compares the signed slice with THRESHOLD, strictly. -/
def Obligations.DetectorExceedsTheThresholdStrictly : Prop :=
  ∀ (c : Cfg) (p : Int),
    (acceptPower c p = true ↔ c.threshold.toInt < (slice16 c p).toInt) ∧
    (c.threshold = 32767 → acceptPower c p = false) ∧
    (c.threshold.toInt = -32768 → (acceptPower c p = true ↔ (slice16 c p).toInt ≠ -32768))

/-! ## Modulator -/

/-- R173 (with R170, R171): MOD_ADD_BIT on a full buffer changes FAULT only; otherwise it completes, writes the slot at BUFF_I and
moves the cursor, and changes nothing else. -/
def Obligations.AddBitWritesTheNextSlotOrFaults : Prop :=
  ∀ (b : Bit) (s : State), s.mod.map.length = s.cfg.nBits * s.cfg.nSpb →
    (s.mod.buffI = s.cfg.nBits →
      exec (.modAddBit b) s = .next { s.answered 0 with fault := .bufferFull }) ∧
    (s.mod.buffI < s.cfg.nBits →
      ∃ m : ModState, exec (.modAddBit b) s = .next { s.answered 0 with mod := m } ∧
        m.buffI = s.mod.buffI + 1 ∧ m.outI = s.mod.outI ∧ m.filt = s.mod.filt ∧
        m.map.length = s.mod.map.length ∧
        (∀ k, k < s.cfg.nSpb → Buffer.read m.map (s.mod.buffI * s.cfg.nSpb + k) =
          some (if s.cfg.mapMode = .hold ∨ k = 0 then (if b then s.cfg.levelHigh else s.cfg.levelLow) else 0)) ∧
        (∀ i, i < s.mod.buffI * s.cfg.nSpb ∨ (s.mod.buffI + 1) * s.cfg.nSpb ≤ i →
          Buffer.read m.map i = Buffer.read s.mod.map i))

/-- R109, R174: MOD_ADD_BYTE v has exactly the effect of MOD_ADD_BIT v[0], ..., MOD_ADD_BIT v[7], with one response. -/
def Obligations.AddByteIsEightAddBits : Prop :=
  ∀ (v : Byte) (s : State), ∃ u,
    execAll [.modAddBit (v.getLsbD 0), .modAddBit (v.getLsbD 1), .modAddBit (v.getLsbD 2), .modAddBit (v.getLsbD 3),
      .modAddBit (v.getLsbD 4), .modAddBit (v.getLsbD 5), .modAddBit (v.getLsbD 6), .modAddBit (v.getLsbD 7)] s
        = .next u ∧
    exec (.modAddByte v) s = .next { u with env := (s.answered 0).env }

/-- R174, corner cases 1 and 2: with r free slots, the first min(r, 8) bits are enqueued, least-significant first, and the others
are discarded, each raising BUFFER_FULL; nothing else changes. -/
def Obligations.AddByteEnqueuesWhatFits : Prop :=
  ∀ (v : Byte) (s : State), s.mod.map.length = s.cfg.nBits * s.cfg.nSpb → s.mod.buffI ≤ s.cfg.nBits →
    ∃ m : ModState,
      exec (.modAddByte v) s = .next { s.answered 0 with
        mod := m, fault := if s.mod.buffI + 8 ≤ s.cfg.nBits then s.fault else .bufferFull } ∧
      m.buffI = min (s.mod.buffI + 8) s.cfg.nBits ∧ m.outI = s.mod.outI ∧ m.filt = s.mod.filt ∧
      m.map.length = s.mod.map.length ∧
      (∀ i k, i < 8 → s.mod.buffI + i < s.cfg.nBits → k < s.cfg.nSpb →
        Buffer.read m.map ((s.mod.buffI + i) * s.cfg.nSpb + k) =
          some (if s.cfg.mapMode = .hold ∨ k = 0 then
            (if v.getLsbD i then s.cfg.levelHigh else s.cfg.levelLow) else 0)) ∧
      (∀ i, i < s.mod.buffI * s.cfg.nSpb ∨ m.buffI * s.cfg.nSpb ≤ i →
        Buffer.read m.map i = Buffer.read s.mod.map i)

/-- R175, R176, R213: the three status reads complete in every state, answer RFD, MOD_DV and DEM_DA, and change nothing. -/
def Obligations.StatusReadsAnswerTheStatusOutputs : Prop :=
  ∀ s : State,
    exec .modIsRfd s = .next (s.answered (if s.mod.outI = 0 then 1 else 0)) ∧
    exec .modIsDv s = .next (s.answered (if s.mod.buffI = s.cfg.nBits then 1 else 0)) ∧
    exec .demIsDa s = .next (s.answered (if s.dem.dv = true then 1 else 0))

/-- R177, R302: MOD_GET_SAMPLE before the frame is complete returns 0x0000 and changes FAULT only; of a complete frame it completes
and returns sample OUT_I of conv(MAP, PF), the cursor moves on, FILT holds the frame, and after the last sample OUT_I is 0, BUFF_I
is N_PRE and FILT holds no value; nothing else changes. -/
def Obligations.GetSampleStreamsTheFilteredFrameOrFaults : Prop :=
  ∀ s : State,
    (s.mod.buffI ≠ s.cfg.nBits →
      exec .modGetSample s = .next { s.answered 0 with fault := .getSampleWithoutDataValid }) ∧
    (s.mod.Inv s.cfg → s.mod.buffI = s.cfg.nBits →
      ∃ (xs : List Sample) (v : Sample) (m : ModState),
        Buffer.readFirst s.mod.map (s.cfg.nBits * s.cfg.nSpb) = some xs ∧
        (conv xs s.cfg.pf)[s.mod.outI]? = some v ∧
        exec .modGetSample s = .next { s.answered v with mod := m } ∧
        m.map = s.mod.map ∧
        (s.mod.outI + 1 = s.cfg.lFilt → m.outI = 0 ∧ m.buffI = s.cfg.nPre ∧ m.filt = Buffer.noValue s.cfg.lFilt) ∧
        (s.mod.outI + 1 ≠ s.cfg.lFilt → m.outI = s.mod.outI + 1 ∧ m.buffI = s.mod.buffI ∧
          m.filt = (conv xs s.cfg.pf).map some))

/-- R178, R179: from a full buffer that nothing streams, exactly L_FILT MOD_GET_SAMPLE commands answer the whole of conv(MAP, PF) in
order without a fault, and the block is ready for data again with its preamble kept. -/
def Obligations.FrameStreamsWholeAndReadyAgain : Prop :=
  ∀ s : State, s.mod.Inv s.cfg → s.mod.buffI = s.cfg.nBits → s.mod.outI = 0 →
    ∃ (xs : List Sample) (t : State),
      Buffer.readFirst s.mod.map (s.cfg.nBits * s.cfg.nSpb) = some xs ∧
      execAll (List.replicate (s.cfg.nBits * s.cfg.nSpb + s.cfg.pf.length - 1) .modGetSample) s = .next t ∧
      t.env = { s.env with trace := s.env.trace ++ (conv xs s.cfg.pf).map .response } ∧
      t.mod = { buffI := s.cfg.nPre, outI := 0, map := s.mod.map, filt := Buffer.noValue s.cfg.lFilt } ∧
      t.fault = s.fault ∧ t.dem = s.dem

/-- R180: bits and bytes offered while a frame streams are discarded with BUFFER_FULL; the frame is left alone. -/
def Obligations.BitsOfferedDuringAStreamAreDiscarded : Prop :=
  ∀ s : State, s.mod.Inv s.cfg → s.mod.outI ≠ 0 →
    (∀ b, exec (.modAddBit b) s = .next { s.answered 0 with fault := .bufferFull }) ∧
    (∀ v, exec (.modAddByte v) s = .next { s.answered 0 with fault := .bufferFull })

/-! ## Demodulator -/

/-- R210, R303: while DV = 1 a fed sample is dropped and only FAULT changes. -/
def Obligations.FeedSampleIsDroppedWhileABitWaits : Prop :=
  ∀ (v : Sample) (s : State), s.dem.dv = true →
    exec (.demFeedSample v) s = .next { s.answered 0 with fault := .demodBufferFull }

/-- R210: a sample that does not fill the window completes, is stored at WIN_I, and nothing else changes. -/
def Obligations.FeedSampleStoresIntoTheWindow : Prop :=
  ∀ (v : Sample) (s : State), s.dem.dv = false → s.dem.win.length = s.cfg.nSpb → s.dem.winI + 1 < s.cfg.nSpb →
    ∃ win : Buffer,
      exec (.demFeedSample v) s = .next { s.answered 0 with dem := { s.dem with win := win, winI := s.dem.winI + 1 } } ∧
      win.length = s.dem.win.length ∧ Buffer.read win s.dem.winI = some v ∧
      ∀ i, i ≠ s.dem.winI → Buffer.read win i = Buffer.read s.dem.win i

/-- R210 to R212: the sample that fills the window completes; the window is analysed (matched filter, power of the unscaled output,
shift by 4, slicer, threshold), DET_POWER is written whether or not it is accepted, DBIT and DV only if it is, WIN_I returns to
0, and nothing else changes. -/
def Obligations.FullWindowIsAnalysed : Prop :=
  ∀ (v : Sample) (s : State), s.dem.Inv s.cfg → s.dem.dv = false → s.dem.winI + 1 = s.cfg.nSpb →
    ∃ (xs : List Sample) (d : DemState),
      xs.length = s.cfg.nSpb ∧ (∀ i, i < s.dem.winI → xs[i]? = Buffer.read s.dem.win i) ∧ xs[s.dem.winI]? = some v ∧
      exec (.demFeedSample v) s = .next { s.answered 0 with dem := d } ∧
      d.win = xs.map some ∧ d.winI = 0 ∧
      d.y = (conv xs s.cfg.mf).map some ∧ d.z = (shiftRight (conv xs s.cfg.mf) 4).map some ∧
      d.detPower = slice16 s.cfg (power (conv xs s.cfg.mf)) ∧ d.dstate = s.dem.dstate ∧
      (s.cfg.threshold.toInt < d.detPower.toInt →
        d.dv = true ∧ d.dbit = some (decideBit (shiftRight (conv xs s.cfg.mf) 4))) ∧
      (¬ s.cfg.threshold.toInt < d.detPower.toInt → d.dv = false ∧ d.dbit = s.dem.dbit)

/-- R214, R304: DEM_GET_BIT returns DBIT and clears DV, or returns 0x0000 and changes FAULT only. -/
def Obligations.GetBitReturnsAndClearsOrFaults : Prop :=
  ∀ s : State,
    (∀ b, s.dem.dv = true → s.dem.dbit = some b →
      exec .demGetBit s = .next { s.answered (if b then 1 else 0) with dem := { s.dem with dv := false } }) ∧
    (s.dem.dv = false → exec .demGetBit s = .next { s.answered 0 with fault := .demodDataNotReady })

/-- R218: after an accepted window exactly one DEM_GET_BIT returns the bit; the second faults DEMOD_DATA_NOT_READY. -/
def Obligations.OneBitPerDetection : Prop :=
  ∀ s : State, s.dem.Inv s.cfg → s.dem.dv = true →
    ∃ (b : Bit) (t : State), s.dem.dbit = some b ∧ execAll [.demGetBit, .demGetBit] s = .next t ∧
      t.env.trace = s.env.trace ++ [.response (if b then 1 else 0), .response 0] ∧
      t.dem.dv = false ∧ t.fault = .demodDataNotReady ∧ t.mod = s.mod

/-- R215, R216: N_WIN samples fed from an empty window complete without a fault, fill it in order, leave the next window empty, and
yield a bit iff the power slice exceeds THRESHOLD. -/
def Obligations.WindowYieldsABitIffItsPowerExceeds : Prop :=
  ∀ (s : State) (vs : List Sample), s.dem.Inv s.cfg → s.dem.dv = false → s.dem.winI = 0 →
    vs.length = s.cfg.nSpb →
    ∃ t, execAll (vs.map .demFeedSample) s = .next t ∧
      t.dem.winI = 0 ∧ t.dem.win = vs.map some ∧ t.fault = s.fault ∧ t.mod = s.mod ∧
      t.dem.detPower = slice16 s.cfg (power (conv vs s.cfg.mf)) ∧
      (t.dem.dv = true ↔ s.cfg.threshold.toInt < t.dem.detPower.toInt) ∧
      (t.dem.dv = true → t.dem.dbit = some (decideBit (shiftRight (conv vs s.cfg.mf) 4))) ∧
      (t.dem.dv = false → t.dem.dbit = s.dem.dbit)

/-! ## Status -/

/-- R250, R251: RD_FAULT and RD_DETPWR complete in every state, return the code of the most recent fault with bits [15:3] zero and
the last power slice, and change nothing. -/
def Obligations.DiagnosticReadsReturnFaultAndDetPower : Prop :=
  ∀ s : State,
    exec .rdFault s = .next (s.answered
      (match s.fault with
        | .noFault => 0
        | .bufferFull => 1
        | .getSampleWithoutDataValid => 2
        | .demodBufferFull => 3
        | .demodDataNotReady => 4)) ∧
    exec .rdDetpwr s = .next (s.answered s.dem.detPower)

/-! ## Sequencer and clock -/

/-- R261: tick step 1 sets CYC to 0 and STEP to 2, and nothing else. -/
def Obligations.TickStartsTheTimer : Prop :=
  ∀ (s : State) (rest : List Move), s.cfg.Accepted → s.mode = .scheduled → s.seq.step = .startTimer →
    s.env.agenda = .seq :: rest →
    step s = .next { s with seq := { step := .input, cyc := some 0 }, env := { s.env with agenda := rest } }

/-- R262: tick step 2 draws one input sample and does with it exactly what DEM_FEED_SAMPLE does, but for the response. That the
answer is the head of a list of State is the model's choice, log 4. -/
def Obligations.TickFeedsTheDrawnSample : Prop :=
  ∀ (s u : State) (v : Sample) (vs : List Sample) (rest : List Move), s.cfg.Accepted → s.mode = .scheduled →
    s.seq.step = .input → s.env.agenda = .seq :: rest → s.env.samples = v :: vs →
    exec (.demFeedSample v) s = .next u →
    step s = .next { u with
      seq := { s.seq with step := .drain },
      env := { s.env with agenda := rest, samples := vs, trace := s.env.trace ++ [.input v] } }

/-- R263: tick step 3 emits the waiting bit, if there is one, doing exactly what DEM_GET_BIT does, but for the response. -/
def Obligations.TickDrainsAtMostOneBit : Prop :=
  ∀ (s : State) (rest : List Move), s.cfg.Accepted → s.mode = .scheduled → s.seq.step = .drain →
    s.env.agenda = .seq :: rest →
    (∀ b, s.dem.dv = true → s.dem.dbit = some b →
      step s = .next { s with
        dem := { s.dem with dv := false }, seq := { s.seq with step := .enqueue },
        env := { s.env with agenda := rest, trace := s.env.trace ++ [.bit b] } }) ∧
    (s.dem.dv = false →
      step s = .next { s with seq := { s.seq with step := .enqueue }, env := { s.env with agenda := rest } })

/-- R264: tick step 4 polls the inbound source only when the modulator is ready, and does with a byte exactly what MOD_ADD_BYTE
does, but for the response. That the answer is the head of a list of State is the model's choice, log 4. -/
def Obligations.TickEnqueuesOnlyWhenReady : Prop :=
  ∀ (s : State) (rest : List Move), s.cfg.Accepted → s.mode = .scheduled → s.seq.step = .enqueue →
    s.env.agenda = .seq :: rest →
    (s.mod.outI ≠ 0 →
      step s = .next { s with seq := { s.seq with step := .output }, env := { s.env with agenda := rest } }) ∧
    (∀ os, s.mod.outI = 0 → s.env.inbound = none :: os →
      step s = .next { s with
        seq := { s.seq with step := .output },
        env := { s.env with agenda := rest, inbound := os, trace := s.env.trace ++ [.inbound none] } }) ∧
    (∀ v os u, s.mod.outI = 0 → s.env.inbound = some v :: os → exec (.modAddByte v) s = .next u →
      step s = .next { u with
        seq := { s.seq with step := .output },
        env := { s.env with agenda := rest, inbound := os, trace := s.env.trace ++ [.inbound (some v)] } })

/-- R265: tick step 5 writes the sample MOD_GET_SAMPLE would return when the frame is complete, else IDLE_LEVEL. -/
def Obligations.TickWritesOneOutputSample : Prop :=
  ∀ (s : State) (rest : List Move), s.cfg.Accepted → s.mode = .scheduled → s.seq.step = .output →
    s.env.agenda = .seq :: rest →
    (s.mod.buffI ≠ s.cfg.nBits →
      step s = .next { s with
        seq := { s.seq with step := .deadline },
        env := { s.env with agenda := rest, trace := s.env.trace ++ [.output 0] } }) ∧
    (∀ u v, s.mod.buffI = s.cfg.nBits → exec .modGetSample s = .next u →
      u.env.trace = s.env.trace ++ [.response v] →
      step s = .next { u with
        seq := { s.seq with step := .deadline },
        env := { s.env with agenda := rest, trace := s.env.trace ++ [.output v] } })

/-- R266, R267: tick step 6 goes back to step 1 exactly when CYC ≥ TICK_CYCLES, an unsigned comparison, however large CYC is;
otherwise nothing changes. -/
def Obligations.TickWaitsForTheDeadline : Prop :=
  ∀ (s : State) (n : BitVec 32) (rest : List Move), s.cfg.Accepted → s.mode = .scheduled →
    s.seq.step = .deadline → s.seq.cyc = some n → s.env.agenda = .seq :: rest →
    (s.cfg.tickCycles ≤ n.toNat →
      step s = .next { s with
        seq := { step := .startTimer, cyc := some n }, env := { s.env with agenda := rest } }) ∧
    (n.toNat < s.cfg.tickCycles → step s = .next { s with env := { s.env with agenda := rest } })

/-- R260: every sequencer step from an invariant state completes; steps 1 to 5 advance STEP by one, step 6 leaves it or sets it
back to 1. -/
def Obligations.SequencerAdvancesOneStepAtATime : Prop :=
  ∀ (s : State) (rest : List Move), s.Inv → s.mode = .scheduled → s.env.agenda = .seq :: rest →
    ∃ t, step s = .next t ∧
      (s.seq.step.number < 6 → t.seq.step.number = s.seq.step.number + 1) ∧
      (s.seq.step.number = 6 → t.seq.step.number = 6 ∨ t.seq.step.number = 1)

/-- R268: a step of the clock adds one to CYC modulo 2^32 and changes nothing else, at any step of the tick. -/
def Obligations.ClockCountsModulo : Prop :=
  ∀ (s : State) (n : BitVec 32) (rest : List Move), s.cfg.Accepted → s.mode = .scheduled →
    s.seq.cyc = some n → s.env.agenda = .clk :: rest →
    ∃ n' : BitVec 32, n'.toNat = (n.toNat + 1) % 4294967296 ∧
      step s = .next { s with
        seq := { step := s.seq.step, cyc := some n' }, env := { s.env with agenda := rest } }

/-- R266, R268: a tick waiting at step 6 with CYC = n ends after TICK_CYCLES − n counts, with nothing but CYC and STEP changed. -/
def Obligations.DeadlineIsReachedAfterTheMissingCounts : Prop :=
  ∀ (s : State) (n : BitVec 32) (rest : List Move), s.cfg.Accepted → s.mode = .scheduled →
    s.seq.step = .deadline → s.seq.cyc = some n → n.toNat ≤ s.cfg.tickCycles →
    s.env.agenda = List.replicate (s.cfg.tickCycles - n.toNat) .clk ++ .seq :: rest →
    ∃ n' : BitVec 32, n'.toNat = s.cfg.tickCycles ∧
      Host.Core.run Sys2Proof.core (s.cfg.tickCycles - n.toNat + 1) s =
        .next { s with seq := { step := .startTimer, cyc := some n' }, env := { s.env with agenda := rest } }

/-- R269, R270, R88: the five working steps of a tick read one input sample, then drain at most one bit, then poll the inbound
source at most once, then write one output sample, in that order, whatever the environment answers. -/
def Obligations.TickReadsOnceThenWritesOnce : Prop :=
  ∀ (s : State) (rest : List Move), s.Inv → s.mode = .scheduled → s.seq.step = .startTimer →
    s.env.agenda = .seq :: .seq :: .seq :: .seq :: .seq :: rest →
    ∃ (t : State) (v w : Sample) (bits : List Bit) (answers : List (Option Byte)),
      Host.Core.run Sys2Proof.core 5 s = .next t ∧ t.seq.step = .deadline ∧
      bits.length ≤ 1 ∧ answers.length ≤ 1 ∧ (answers ≠ [] ↔ s.mod.outI = 0) ∧
      t.env.trace = s.env.trace ++ .input v :: (bits.map .bit ++ answers.map .inbound) ++ [.output w]

/-- R270: every step but a reset keeps the count of input reads and output writes in balance. -/
def Obligations.ReadsAndWritesStayInBalance : Prop :=
  ∀ s t : State, s.mode = .scheduled → s.env.agenda.head? ≠ some .reset → s.ReadsMatchWrites →
    step s = .next t → t.ReadsMatchWrites

/-- R275: no step of the sequencer but the wait of step 6 depends on CYC: with another CYC the same step gives the same state, CYC
apart. -/
def Obligations.TimeDoesNotAffectTheData : Prop :=
  ∀ (s t : State) (c : Option (BitVec 32)) (rest : List Move), s.mode = .scheduled → s.seq.step ≠ .deadline →
    s.env.agenda = .seq :: rest → step s = .next t →
    ∃ u, step { s with seq := { s.seq with cyc := c } } = .next u ∧ u.timeless = t.timeless

/-! ## The whole machine -/

/-- R252: FAULT and DET_POWER are observation outputs only: hiding them changes no other part of what a command other than their
two accessors, or a step of SCHEDULED mode, does. -/
def Obligations.FaultAndPowerAreOnlyObserved : Prop :=
  (∀ (i : Instr) (s t : State), i ≠ .rdFault → i ≠ .rdDetpwr → exec i s = .next t →
    ∃ u, exec i s.blind = .next u ∧ u.blind = t.blind) ∧
  (∀ s t : State, s.mode = .scheduled → step s = .next t → ∃ u, step s.blind = .next u ∧ u.blind = t.blind)

/-- R46: once a fault has been recorded, no step but a reset makes the register read 0 again. -/
def Obligations.FaultIsClearedOnlyByReset : Prop :=
  ∀ s t : State, s.env.agenda.head? ≠ some .reset → faultWord s ≠ 0 → step s = .next t → faultWord t ≠ 0

/-- R306: a command raises at most one fault kind, its own: FAULT is as before, or the kind of its unit's operation. -/
def Obligations.CommandRaisesOnlyItsOwnFault : Prop :=
  ∀ (i : Instr) (s t : State), exec i s = .next t → t.fault ≠ s.fault →
    match i with
    | .modAddBit _ => s.mod.buffI = s.cfg.nBits ∧ t.fault = .bufferFull
    | .modAddByte _ => s.mod.buffI ≤ s.cfg.nBits → s.cfg.nBits < s.mod.buffI + 8 ∧ t.fault = .bufferFull
    | .modGetSample => s.mod.buffI ≠ s.cfg.nBits ∧ t.fault = .getSampleWithoutDataValid
    | .demFeedSample _ => s.dem.dv = true ∧ t.fault = .demodBufferFull
    | .demGetBit => s.dem.dv = false ∧ t.fault = .demodDataNotReady
    | .modIsRfd => False
    | .modIsDv => False
    | .demIsDa => False
    | .rdFault => False
    | .rdDetpwr => False

/-- R50, R311, R351: no step changes the configuration or the mode. That a reset step keeps the mode is inferred, log 8. -/
def Obligations.ConfigurationAndModeNeverChange : Prop :=
  ∀ s t : State, step s = .next t → t.cfg = s.cfg ∧ t.mode = s.mode

/-- The state after reset meets the invariant, for every accepted configuration and both modes. -/
def Obligations.ResetStateMeetsTheInvariant : Prop :=
  ∀ (c : Cfg) (m : Mode), c.Accepted → (State.resetOf c m).Inv

/-- Every step keeps the invariant: cursors in range, buffers at their sizes, the preamble in place, FILT valid exactly while a
frame streams, DBIT written before DV, DSTATE hardwired, CYC written before it is read (R36, R38, R40, R44, R47, R57, R81). -/
def Obligations.EveryStepKeepsTheInvariant : Prop :=
  ∀ s t : State, s.Inv → step s = .next t → t.Inv

/-- R57, R319: from an invariant state no step reads an element that holds no value, and every legal command completes. -/
def Obligations.NoElementWithoutValueIsRead : Prop :=
  ∀ s : State, s.Inv → Safe (step s) ∧ ∀ i : Instr, ∃ t, exec i s = .next t

/-- R23, R87, R104, R313: in COMMAND mode a program of commands, sent as their words, runs to its end whatever its commands are: each
word gives one response, none stops the machine, and the state it leaves meets the invariant. -/
def Obligations.CommandProgramRunsToItsEnd : Prop :=
  ∀ (s : State) (p : List Instr) (rest : List Move), s.Inv → s.mode = .command →
    s.env.agenda = p.map (fun i => .command (encode i)) ++ rest →
    ∃ (t : State) (rs : List Response),
      Host.Core.run Sys2Proof.core p.length s = .next t ∧ t.Inv ∧ rs.length = p.length ∧ t.mode = .command ∧
      t.env = { s.env with agenda := rest, trace := s.env.trace ++ rs.map .response }

/-- R275, R319: in SCHEDULED mode the loop never ends and is never stuck: from an invariant state, with no command offered, every number
of steps answers a next state, whatever the environment and the clock do. -/
def Obligations.ScheduledRunNeverStops : Prop :=
  ∀ (s : State) (k : Nat), s.Inv → s.mode = .scheduled → (∀ w, .command w ∉ s.env.agenda) →
    ∃ t, Host.Core.run Sys2Proof.core k s = .next t ∧ t.Inv ∧ t.mode = .scheduled

/-- The state after reset meets the invariant of SCHEDULED mode. -/
def Obligations.ResetStateMeetsTheScheduledInvariant : Prop :=
  ∀ c : Cfg, c.Accepted → (State.resetOf c .scheduled).ScheduledInv

/-- R271: every step of SCHEDULED mode keeps its invariant: a bit is drained in its own tick, a full buffer starts to stream in its
own tick, and BUFFER_FULL is the only fault. -/
def Obligations.EveryStepKeepsTheScheduledInvariant : Prop :=
  ∀ s t : State, s.Inv → s.ScheduledInv → step s = .next t → t.ScheduledInv

/-- R271: where the payload is a multiple of eight bits, no step of SCHEDULED mode raises a fault or splits a byte. -/
def Obligations.WholeBytePayloadNeverFaults : Prop :=
  ∀ s t : State, s.Inv → s.ScheduledInv → s.WholeBytesInv → step s = .next t → t.WholeBytesInv
end

