-- ==== Sys2Proof/Laws/Arith.lean ====
section
/-! SUPPORT. Lengths of what the Q15 unit returns (40_q15_arith.md R134, R140) and the ranges of its scalar helpers (R130). -/
namespace Sys2Proof.Machine

@[simp] theorem conv_length (x h : List Sample) : (conv x h).length = x.length + h.length - 1 := by
  simp [conv]

@[simp] theorem shiftRight_length (y : List Sample) (n : Nat) : (shiftRight y n).length = y.length := by
  simp [shiftRight]

/-- An output of `conv` by its index (R134). -/
theorem conv_getElem? (x h : List Sample) {n : Nat} (hn : n < x.length + h.length - 1) :
    (conv x h)[n]? = some (convOut x h n) := by
  simp [conv, hn]

/-- `sat16` answers an int16 (R130). -/
theorem sat16_range (v : Int) : -32768 ≤ sat16 v ∧ sat16 v ≤ 32767 := by
  unfold sat16
  split
  · omega
  · split <;> omega

/-- `sat16` is the identity on int16 (R130). -/
theorem sat16_of_range {v : Int} (h : -32768 ≤ v ∧ v ≤ 32767) : sat16 v = v := by
  unfold sat16
  rw [if_neg (by omega), if_neg (by omega)]

/-- A value in the int16 range is what its pattern reads back as (R14, R15). -/
theorem toSample_toInt {v : Int} (h : -32768 ≤ v ∧ v ≤ 32767) : (toSample v).toInt = v := by
  rw [toSample, BitVec.toInt_ofInt]
  exact Int.bmod_eq_of_le (by omega) (by omega)

end Sys2Proof.Machine
end

