-- ==== Sys2Proof/Laws/Assembler.lean ====
section
/-! SUPPORT. The digits that assembly text prints are read back as their values (30_encoding.md R108). -/
namespace Sys2Proof

/-- A printed hexadecimal digit reads as its value. -/
theorem hexDigit_hexChar : ∀ n < 16, hexDigit (hexChar n) = some n := by decide

/-- A printed digit ends no word and starts no comment. -/
theorem hexChar_plain : ∀ n < 16, (hexChar n).isWhitespace = false ∧ hexChar n ≠ ';' := by decide

end Sys2Proof
end

