-- ==== Sys2Proof/Laws/Buffer.lean ====
section
/-! SUPPORT. The laws of the buffers: sizes never change (20_memory.md R81), a read after a write gives the value written, a
write leaves every other element alone, and what reading a run of elements gives. -/
namespace Sys2Proof.Machine.Buffer

@[simp] theorem length_noValue (n : Nat) : (noValue n).length = n := by simp [noValue]

@[simp] theorem length_ofValues (xs : List Sample) : (ofValues xs).length = xs.length := by simp [ofValues]

@[simp] theorem length_write (b : Buffer) (i : Nat) (v : Sample) : (write b i v).length = b.length := by
  simp [write]

theorem read_nil (i : Nat) : read [] i = none := by simp [read]

@[simp] theorem read_cons_zero (a : Option Sample) (b : Buffer) : read (a :: b) 0 = a := rfl

@[simp] theorem read_cons_succ (a : Option Sample) (b : Buffer) (i : Nat) : read (a :: b) (i + 1) = read b i := by
  simp [read]

@[simp] theorem read_noValue (n i : Nat) : read (noValue n) i = none := by
  simp only [read, noValue, List.getElem?_replicate]
  by_cases h : i < n <;> simp [h]

theorem read_ofValues (xs : List Sample) (i : Nat) : read (ofValues xs) i = xs[i]? := by
  simp only [read, ofValues, List.getElem?_map]
  cases xs[i]? <;> rfl

theorem read_write_same {b : Buffer} {i : Nat} (h : i < b.length) (v : Sample) : read (write b i v) i = some v := by
  simp [read, write, h]

theorem read_write_other {b : Buffer} {i j : Nat} (h : i ≠ j) (v : Sample) : read (write b i v) j = read b j := by
  simp [read, write, List.getElem?_set_ne h]

/-- An element that holds a value is inside the buffer. -/
theorem lt_length_of_read_isSome {b : Buffer} {i : Nat} (h : (read b i).isSome) : i < b.length := by
  by_contra hlen
  simp [read, List.getElem?_eq_none (Nat.le_of_not_lt hlen)] at h

/-- Reading a run of elements needs each of them to hold a value, and nothing else. -/
theorem readFirst_isSome_iff (b : Buffer) (n : Nat) :
    (readFirst b n).isSome ↔ ∀ i, i < n → (read b i).isSome := by
  induction n generalizing b with
  | zero => simp [readFirst]
  | succ n ih =>
    match b with
    | [] =>
      simp only [readFirst, Option.isSome_none, Bool.false_eq_true, false_iff, not_forall]
      exact ⟨0, by simp, by simp [read_nil]⟩
    | none :: rest =>
      simp only [readFirst, Option.isSome_none, Bool.false_eq_true, false_iff, not_forall]
      exact ⟨0, by simp, by simp⟩
    | some v :: rest =>
      simp only [readFirst, Option.isSome_map, ih rest]
      constructor
      · intro h i hi
        cases i with
        | zero => simp
        | succ i => simpa using h i (by omega)
      · intro h i hi
        simpa using h (i + 1) (by omega)

/-- The values of a run, element by element. -/
theorem readFirst_getElem? {b : Buffer} {n : Nat} {xs : List Sample} (h : readFirst b n = some xs) :
    xs.length = n ∧ ∀ i, i < n → xs[i]? = read b i := by
  induction n generalizing b xs with
  | zero => simp [readFirst] at h; simp [← h]
  | succ n ih =>
    match b, h with
    | some v :: rest, h =>
      simp only [readFirst, Option.map_eq_some_iff] at h
      obtain ⟨ys, hys, rfl⟩ := h
      obtain ⟨hl, hr⟩ := ih hys
      refine ⟨by simp [hl], fun i hi => ?_⟩
      cases i with
      | zero => simp
      | succ i => simpa using hr i (by omega)

/-- A run of a known length reads the same in two buffers that agree on it. -/
theorem readFirst_congr {b b' : Buffer} {n : Nat} (h : ∀ i, i < n → read b i = read b' i) :
    readFirst b n = readFirst b' n := by
  have hs : (readFirst b n).isSome ↔ (readFirst b' n).isSome := by
    rw [readFirst_isSome_iff, readFirst_isSome_iff]
    exact ⟨fun k i hi => h i hi ▸ k i hi, fun k i hi => (h i hi).symm ▸ k i hi⟩
  match hb : readFirst b n, hb' : readFirst b' n with
  | none, none => rfl
  | none, some _ => simp [hb, hb'] at hs
  | some _, none => simp [hb, hb'] at hs
  | some xs, some ys =>
    obtain ⟨lx, rx⟩ := readFirst_getElem? hb
    obtain ⟨ly, ry⟩ := readFirst_getElem? hb'
    congr 1
    refine List.ext_getElem? fun i => ?_
    by_cases hi : i < n
    · rw [rx i hi, ry i hi, h i hi]
    · rw [List.getElem?_eq_none (by omega), List.getElem?_eq_none (by omega)]

end Sys2Proof.Machine.Buffer
end

