-- ==== Sys2Proof/Laws/State.lean ====
section
/-! SUPPORT. One lemma per field per update of State, each true by unfolding, so that no later proof unfolds a record update; and
what the draws, the response and the reset event leave alone. -/
namespace Sys2Proof.Machine.State

@[simp] theorem setMod_cfg (s : State) (m : ModState) : (s.setMod m).cfg = s.cfg := rfl
@[simp] theorem setMod_mode (s : State) (m : ModState) : (s.setMod m).mode = s.mode := rfl
@[simp] theorem setMod_mod (s : State) (m : ModState) : (s.setMod m).mod = m := rfl
@[simp] theorem setMod_dem (s : State) (m : ModState) : (s.setMod m).dem = s.dem := rfl
@[simp] theorem setMod_fault (s : State) (m : ModState) : (s.setMod m).fault = s.fault := rfl
@[simp] theorem setMod_seq (s : State) (m : ModState) : (s.setMod m).seq = s.seq := rfl
@[simp] theorem setMod_env (s : State) (m : ModState) : (s.setMod m).env = s.env := rfl

@[simp] theorem setDem_cfg (s : State) (d : DemState) : (s.setDem d).cfg = s.cfg := rfl
@[simp] theorem setDem_mode (s : State) (d : DemState) : (s.setDem d).mode = s.mode := rfl
@[simp] theorem setDem_mod (s : State) (d : DemState) : (s.setDem d).mod = s.mod := rfl
@[simp] theorem setDem_dem (s : State) (d : DemState) : (s.setDem d).dem = d := rfl
@[simp] theorem setDem_fault (s : State) (d : DemState) : (s.setDem d).fault = s.fault := rfl
@[simp] theorem setDem_seq (s : State) (d : DemState) : (s.setDem d).seq = s.seq := rfl
@[simp] theorem setDem_env (s : State) (d : DemState) : (s.setDem d).env = s.env := rfl

@[simp] theorem setSeq_cfg (s : State) (q : SeqState) : (s.setSeq q).cfg = s.cfg := rfl
@[simp] theorem setSeq_mode (s : State) (q : SeqState) : (s.setSeq q).mode = s.mode := rfl
@[simp] theorem setSeq_mod (s : State) (q : SeqState) : (s.setSeq q).mod = s.mod := rfl
@[simp] theorem setSeq_dem (s : State) (q : SeqState) : (s.setSeq q).dem = s.dem := rfl
@[simp] theorem setSeq_fault (s : State) (q : SeqState) : (s.setSeq q).fault = s.fault := rfl
@[simp] theorem setSeq_seq (s : State) (q : SeqState) : (s.setSeq q).seq = q := rfl
@[simp] theorem setSeq_env (s : State) (q : SeqState) : (s.setSeq q).env = s.env := rfl

@[simp] theorem setEnv_cfg (s : State) (e : Env) : (s.setEnv e).cfg = s.cfg := rfl
@[simp] theorem setEnv_mode (s : State) (e : Env) : (s.setEnv e).mode = s.mode := rfl
@[simp] theorem setEnv_mod (s : State) (e : Env) : (s.setEnv e).mod = s.mod := rfl
@[simp] theorem setEnv_dem (s : State) (e : Env) : (s.setEnv e).dem = s.dem := rfl
@[simp] theorem setEnv_fault (s : State) (e : Env) : (s.setEnv e).fault = s.fault := rfl
@[simp] theorem setEnv_seq (s : State) (e : Env) : (s.setEnv e).seq = s.seq := rfl
@[simp] theorem setEnv_env (s : State) (e : Env) : (s.setEnv e).env = e := rfl

@[simp] theorem raise_cfg (s : State) (k : FaultKind) : (s.raise k).cfg = s.cfg := rfl
@[simp] theorem raise_mode (s : State) (k : FaultKind) : (s.raise k).mode = s.mode := rfl
@[simp] theorem raise_mod (s : State) (k : FaultKind) : (s.raise k).mod = s.mod := rfl
@[simp] theorem raise_dem (s : State) (k : FaultKind) : (s.raise k).dem = s.dem := rfl
@[simp] theorem raise_fault (s : State) (k : FaultKind) : (s.raise k).fault = k := rfl
@[simp] theorem raise_seq (s : State) (k : FaultKind) : (s.raise k).seq = s.seq := rfl
@[simp] theorem raise_env (s : State) (k : FaultKind) : (s.raise k).env = s.env := rfl

@[simp] theorem emit_cfg (s : State) (e : Event) : (s.emit e).cfg = s.cfg := rfl
@[simp] theorem emit_mode (s : State) (e : Event) : (s.emit e).mode = s.mode := rfl
@[simp] theorem emit_mod (s : State) (e : Event) : (s.emit e).mod = s.mod := rfl
@[simp] theorem emit_dem (s : State) (e : Event) : (s.emit e).dem = s.dem := rfl
@[simp] theorem emit_fault (s : State) (e : Event) : (s.emit e).fault = s.fault := rfl
@[simp] theorem emit_seq (s : State) (e : Event) : (s.emit e).seq = s.seq := rfl
@[simp] theorem emit_env (s : State) (e : Event) : (s.emit e).env = { s.env with trace := s.env.trace ++ [e] } := rfl

@[simp] theorem goto_cfg (s : State) (n : TickStep) : (s.goto n).cfg = s.cfg := rfl
@[simp] theorem goto_mode (s : State) (n : TickStep) : (s.goto n).mode = s.mode := rfl
@[simp] theorem goto_mod (s : State) (n : TickStep) : (s.goto n).mod = s.mod := rfl
@[simp] theorem goto_dem (s : State) (n : TickStep) : (s.goto n).dem = s.dem := rfl
@[simp] theorem goto_fault (s : State) (n : TickStep) : (s.goto n).fault = s.fault := rfl
@[simp] theorem goto_seq (s : State) (n : TickStep) : (s.goto n).seq = { s.seq with step := n } := rfl
@[simp] theorem goto_env (s : State) (n : TickStep) : (s.goto n).env = s.env := rfl

@[simp] theorem setAgenda_cfg (s : State) (a : List Move) : (s.setAgenda a).cfg = s.cfg := rfl
@[simp] theorem setAgenda_mode (s : State) (a : List Move) : (s.setAgenda a).mode = s.mode := rfl
@[simp] theorem setAgenda_mod (s : State) (a : List Move) : (s.setAgenda a).mod = s.mod := rfl
@[simp] theorem setAgenda_dem (s : State) (a : List Move) : (s.setAgenda a).dem = s.dem := rfl
@[simp] theorem setAgenda_fault (s : State) (a : List Move) : (s.setAgenda a).fault = s.fault := rfl
@[simp] theorem setAgenda_seq (s : State) (a : List Move) : (s.setAgenda a).seq = s.seq := rfl
@[simp] theorem setAgenda_env (s : State) (a : List Move) : (s.setAgenda a).env = { s.env with agenda := a } := rfl

@[simp] theorem countDraw_cfg (s : State) : (s.countDraw).cfg = s.cfg := rfl
@[simp] theorem countDraw_mode (s : State) : (s.countDraw).mode = s.mode := rfl
@[simp] theorem countDraw_mod (s : State) : (s.countDraw).mod = s.mod := rfl
@[simp] theorem countDraw_dem (s : State) : (s.countDraw).dem = s.dem := rfl
@[simp] theorem countDraw_fault (s : State) : (s.countDraw).fault = s.fault := rfl
@[simp] theorem countDraw_seq (s : State) : (s.countDraw).seq = s.seq := rfl
@[simp] theorem countDraw_env (s : State) : (s.countDraw).env = { s.env with draws := s.env.draws + 1 } := rfl

@[simp] theorem resetEvent_cfg (s : State) : (s.resetEvent).cfg = s.cfg := rfl
@[simp] theorem resetEvent_mode (s : State) : (s.resetEvent).mode = s.mode := rfl
@[simp] theorem resetEvent_mod (s : State) : (s.resetEvent).mod = ModState.resetOf s.cfg := rfl
@[simp] theorem resetEvent_dem (s : State) : (s.resetEvent).dem = DemState.resetOf s.cfg := rfl
@[simp] theorem resetEvent_fault (s : State) : (s.resetEvent).fault = FaultKind.noFault := rfl
@[simp] theorem resetEvent_seq (s : State) : (s.resetEvent).seq = SeqState.resetState := rfl
@[simp] theorem resetEvent_env (s : State) : (s.resetEvent).env = s.env := rfl

@[simp] theorem drawInput_cfg (s : State) : s.drawInput.2.cfg = s.cfg := by
  unfold drawInput; split <;> rfl
@[simp] theorem drawInput_mode (s : State) : s.drawInput.2.mode = s.mode := by
  unfold drawInput; split <;> rfl
@[simp] theorem drawInput_mod (s : State) : s.drawInput.2.mod = s.mod := by
  unfold drawInput; split <;> rfl
@[simp] theorem drawInput_dem (s : State) : s.drawInput.2.dem = s.dem := by
  unfold drawInput; split <;> rfl
@[simp] theorem drawInput_fault (s : State) : s.drawInput.2.fault = s.fault := by
  unfold drawInput; split <;> rfl
@[simp] theorem drawInput_seq (s : State) : s.drawInput.2.seq = s.seq := by
  unfold drawInput; split <;> rfl

@[simp] theorem drawInbound_cfg (s : State) : s.drawInbound.2.cfg = s.cfg := by
  unfold drawInbound; split <;> rfl
@[simp] theorem drawInbound_mode (s : State) : s.drawInbound.2.mode = s.mode := by
  unfold drawInbound; split <;> rfl
@[simp] theorem drawInbound_mod (s : State) : s.drawInbound.2.mod = s.mod := by
  unfold drawInbound; split <;> rfl
@[simp] theorem drawInbound_dem (s : State) : s.drawInbound.2.dem = s.dem := by
  unfold drawInbound; split <;> rfl
@[simp] theorem drawInbound_fault (s : State) : s.drawInbound.2.fault = s.fault := by
  unfold drawInbound; split <;> rfl
@[simp] theorem drawInbound_seq (s : State) : s.drawInbound.2.seq = s.seq := by
  unfold drawInbound; split <;> rfl

/-- What `draw IN()` does to the environment's trace: one input event, the drawn sample's. -/
theorem drawInput_trace (s : State) : s.drawInput.2.env.trace = s.env.trace ++ [.input s.drawInput.1] := by
  unfold drawInput; split <;> rfl

/-- What `draw INBOUND()` does to the environment's trace: one inbound event, the answer's. -/
theorem drawInbound_trace (s : State) :
    s.drawInbound.2.env.trace = s.env.trace ++ [.inbound s.drawInbound.1] := by
  unfold drawInbound; split <;> rfl

/-- A draw leaves the agenda alone. -/
@[simp] theorem drawInput_agenda (s : State) : s.drawInput.2.env.agenda = s.env.agenda := by
  unfold drawInput; split <;> rfl

/-- A draw leaves the agenda alone. -/
@[simp] theorem drawInbound_agenda (s : State) : s.drawInbound.2.env.agenda = s.env.agenda := by
  unfold drawInbound; split <;> rfl

end Sys2Proof.Machine.State

namespace Sys2Proof.Machine

/-- A command that answers a next state answers the operation's state with its response appended to the trace. -/
theorem respond_next {r : Except Fault (State × Response)} {t : State} (h : respond r = .next t) :
    ∃ s w, r = .ok (s, w) ∧ t = s.emit (.response w) := by
  cases r with
  | error f => simp only [respond, reduceCtorEq] at h
  | ok p => exact ⟨p.1, p.2, rfl, by simpa only [respond, Host.Outcome.next.injEq] using h.symm⟩

/-- A command whose operation succeeds answers that operation's state and response. -/
theorem respond_ok_next {u t : State} {w : Response} (h : respond (.ok (u, w)) = .next t) :
    t = u.emit (.response w) := by
  simpa only [respond, Host.Outcome.next.injEq] using h.symm

/-- A command faults only where its operation does. -/
theorem respond_fault {r : Except Fault (State × Response)} {f : Fault} (h : respond r = .fault f) : r = .error f := by
  cases r with
  | error g => simpa only [respond, Host.Outcome.fault.injEq, Except.error.injEq] using h
  | ok p => simp only [respond, reduceCtorEq] at h

/-- A command is never refused by its own operation. -/
theorem respond_ne_refused (r : Except Fault (State × Response)) (q : Refusal) : respond r ≠ .refused q := by
  cases r <;> simp only [respond, ne_eq, reduceCtorEq, not_false_eq_true]

end Sys2Proof.Machine
end

