-- ==== Sys2Proof/Laws/Demodulator.lean ====
section
/-! SUPPORT. What the demodulator's operations do and what they leave alone (42_demodulator.md R210, R211, R214), and that each
keeps the demodulator's invariant (10_state.md R40, R44, R57). -/
namespace Sys2Proof.Machine

/-- What detection writes whether or not it accepts the window (R211, R212), and what it leaves alone. -/
theorem detect_always (c : Cfg) (xs : List Sample) (d : DemState) :
    (detect c xs d).y = Buffer.ofValues (conv xs c.mf) ∧
    (detect c xs d).z = Buffer.ofValues (shiftRight (conv xs c.mf) 4) ∧
    (detect c xs d).detPower = slice16 c (power (conv xs c.mf)) ∧
    (detect c xs d).win = d.win ∧ (detect c xs d).winI = d.winI ∧ (detect c xs d).dstate = d.dstate := by
  unfold detect
  by_cases h : acceptPower c (power (conv xs c.mf)) <;> simp [h, Cfg.shift]

/-- DBIT and DV after detection (R211): written together on acceptance, untouched otherwise. -/
theorem detect_decision (c : Cfg) (xs : List Sample) (d : DemState) :
    ((detect c xs d).dv = true ∧ (detect c xs d).dbit = some (decideBit (shiftRight (conv xs c.mf) 4)) ∧
      acceptPower c (power (conv xs c.mf)) = true) ∨
    ((detect c xs d).dv = d.dv ∧ (detect c xs d).dbit = d.dbit ∧ acceptPower c (power (conv xs c.mf)) = false) := by
  unfold detect
  by_cases h : acceptPower c (power (conv xs c.mf)) <;> simp [h, Cfg.shift]

/-- A sample offered while a bit waits is dropped: only FAULT changes (R210, R303). -/
theorem feedSample_dropped {s : State} (v : Sample) (h : s.dem.dv = true) :
    feedSample v s = .ok (s.raise .demodBufferFull) := by
  simp [feedSample, h]

/-- A sample that does not complete the window is stored, nothing else (R210). -/
theorem feedSample_stored {s : State} (v : Sample) (h : s.dem.dv = false) (hw : s.dem.winI + 1 ≠ s.cfg.nWin) :
    feedSample v s = .ok (s.setDem { s.dem with win := Buffer.write s.dem.win s.dem.winI v, winI := s.dem.winI + 1 }) := by
  simp [feedSample, h, storeSample, hw]

/-- The sample that completes the window: the window is analysed and the cursor returns to 0 (R210, R211). -/
theorem feedSample_completes {s : State} (v : Sample) (h : s.dem.dv = false) (hw : s.dem.winI + 1 = s.cfg.nWin)
    {xs : List Sample} (hxs : Buffer.readFirst (Buffer.write s.dem.win s.dem.winI v) s.cfg.nWin = some xs) :
    feedSample v s = .ok (s.setDem { detect s.cfg xs (storeSample v s.dem) with winI := 0 }) := by
  simp [feedSample, h, storeSample, hw, hxs]

/-- The window can be read whole when it is full (R57). -/
theorem window_readable {c : Cfg} {d : DemState} (v : Sample) (h : d.Inv c) (hw : d.winI + 1 = c.nWin) :
    ∃ xs, Buffer.readFirst (Buffer.write d.win d.winI v) c.nWin = some xs ∧ xs.length = c.nWin := by
  have hs : (Buffer.readFirst (Buffer.write d.win d.winI v) c.nWin).isSome := by
    rw [Buffer.readFirst_isSome_iff]
    intro i hi
    by_cases k : d.winI = i
    · subst k
      rw [Buffer.read_write_same (by rw [h.winLength]; exact hi)]
      rfl
    · rw [Buffer.read_write_other k]
      exact h.winFilled i (by omega)
  obtain ⟨xs, hxs⟩ := Option.isSome_iff_exists.mp hs
  exact ⟨xs, hxs, (Buffer.readFirst_getElem? hxs).1⟩

/-- What `feed_sample` never touches, whichever way it goes. -/
theorem feedSample_frame {s t : State} {v : Sample} (h : feedSample v s = .ok t) :
    t.cfg = s.cfg ∧ t.mode = s.mode ∧ t.mod = s.mod ∧ t.seq = s.seq ∧ t.env = s.env := by
  unfold feedSample at h
  split at h
  · cases h; exact ⟨rfl, rfl, rfl, rfl, rfl⟩
  · dsimp only at h
    split at h
    · split at h
      · cases h
      · cases h; exact ⟨rfl, rfl, rfl, rfl, rfl⟩
    · cases h; exact ⟨rfl, rfl, rfl, rfl, rfl⟩

/-- FAULT after `feed_sample` (R210, R306). -/
theorem feedSample_fault {s t : State} {v : Sample} (h : feedSample v s = .ok t) :
    (s.dem.dv = true ∧ t.fault = .demodBufferFull) ∨ (s.dem.dv = false ∧ t.fault = s.fault) := by
  unfold feedSample at h
  split at h
  · rename_i hd; cases h; exact .inl ⟨hd, rfl⟩
  · rename_i hd
    simp only [Bool.not_eq_true] at hd
    dsimp only at h
    split at h
    · split at h
      · cases h
      · cases h; exact .inr ⟨hd, rfl⟩
    · cases h; exact .inr ⟨hd, rfl⟩

/-- `feed_sample` keeps the demodulator's invariant and never meets an element without a value (R40, R44, R57). -/
theorem feedSample_keeps_inv (v : Sample) {s : State} (h : s.dem.Inv s.cfg) :
    ∃ t, feedSample v s = .ok t ∧ t.dem.Inv s.cfg := by
  cases hd : s.dem.dv with
  | true => exact ⟨_, feedSample_dropped v hd, h⟩
  | false =>
    by_cases hw : s.dem.winI + 1 = s.cfg.nWin
    · obtain ⟨xs, hxs, hlen⟩ := window_readable v h hw
      refine ⟨_, feedSample_completes v hd hw hxs, ?_⟩
      obtain ⟨hy, hz, -, hwin, -, hds⟩ := detect_always s.cfg xs (storeSample v s.dem)
      have hpos : 0 < s.cfg.nWin := by omega
      refine ⟨?_, hpos, fun i hi => absurd hi (Nat.not_lt_zero i), ?_, ?_, ?_, ?_⟩
      · rw [State.setDem_dem]; exact (congrArg List.length hwin).trans (by simpa [storeSample] using h.winLength)
      · simp [hy, hlen, Cfg.lY, Cfg.lMf]
      · simp [hz, hlen, Cfg.lY, Cfg.lMf]
      · intro k
        rcases detect_decision s.cfg xs (storeSample v s.dem) with ⟨-, hb, -⟩ | ⟨hdv, -, -⟩
        · simp [hb]
        · have hdv' : (detect s.cfg xs (storeSample v s.dem)).dv = false := hdv.trans hd
          exact absurd k (by simp [hdv'])
      · exact hds.trans h.dstateHard
    · refine ⟨_, feedSample_stored v hd hw, ?_⟩
      have hr := h.winRange
      refine ⟨by simpa using h.winLength, by simp only [State.setDem_dem]; omega, ?_, h.yLength, h.zLength, ?_,
        h.dstateHard⟩
      · intro i hi
        simp only [State.setDem_dem] at hi ⊢
        by_cases k : s.dem.winI = i
        · subst k
          rw [Buffer.read_write_same (by rw [h.winLength]; exact hr)]
          rfl
        · rw [Buffer.read_write_other k]
          exact h.winFilled i (by omega)
      · intro k
        simp only [State.setDem_dem] at k
        rw [hd] at k
        cases k

/-- `get_bit` with a bit waiting (R214). -/
theorem getBit_ready {s : State} {b : Bit} (h : s.dem.dv = true) (hb : s.dem.dbit = some b) :
    getBit s = .ok (s.setDem { s.dem with dv := false }, b) := by
  simp [getBit, h, hb]

/-- `get_bit` with none: only FAULT changes (R214, R304). -/
theorem getBit_not_ready {s : State} (h : s.dem.dv = false) : getBit s = .ok (s.raise .demodDataNotReady, false) := by
  simp [getBit, h]

/-- `get_bit` keeps the demodulator's invariant and never meets DBIT without a value (R44, R57). -/
theorem getBit_keeps_inv {s : State} (h : s.dem.Inv s.cfg) : ∃ t b, getBit s = .ok (t, b) ∧ t.dem.Inv s.cfg := by
  cases hd : s.dem.dv with
  | true =>
    obtain ⟨b, hb⟩ := Option.isSome_iff_exists.mp (h.dbitHeld hd)
    refine ⟨_, b, getBit_ready hd hb, ?_⟩
    exact ⟨h.winLength, h.winRange, h.winFilled, h.yLength, h.zLength, fun k => by simp at k, h.dstateHard⟩
  | false => exact ⟨_, false, getBit_not_ready hd, h⟩

/-- What `get_bit` never touches, whichever way it goes. -/
theorem getBit_frame {s t : State} {b : Bit} (h : getBit s = .ok (t, b)) :
    t.cfg = s.cfg ∧ t.mode = s.mode ∧ t.mod = s.mod ∧ t.seq = s.seq ∧ t.env = s.env := by
  unfold getBit at h
  split at h
  · split at h
    · cases h
    · cases h; exact ⟨rfl, rfl, rfl, rfl, rfl⟩
  · cases h; exact ⟨rfl, rfl, rfl, rfl, rfl⟩

end Sys2Proof.Machine
end

