-- ==== Sys2Proof/Laws/Mapper.lean ====
section
/-! SUPPORT. What `write_slot` (41_modulator.md R171) and the preamble load (70_reset_and_hazards.md R342) write and what they
leave alone. -/
namespace Sys2Proof.Machine

/-- The first `n` writes of a slot: their elements hold the slot's samples, every other element is as before. -/
theorem slotWrites (c : Cfg) (base : Nat) (b : Bit) (m : Buffer) (n : Nat) :
    let r := (List.range n).foldl (fun m k => Buffer.write m (base + k) (slotSample c b k)) m
    r.length = m.length ∧
    (∀ k, k < n → base + k < m.length → Buffer.read r (base + k) = some (slotSample c b k)) ∧
    (∀ i, i < base ∨ base + n ≤ i → Buffer.read r i = Buffer.read m i) := by
  induction n with
  | zero => simp
  | succ n ih =>
    obtain ⟨hl, hin, hout⟩ := ih
    simp only [List.range_succ, List.foldl_append, List.foldl_cons, List.foldl_nil]
    refine ⟨by simpa using hl, fun k hk hb => ?_, fun i hi => ?_⟩
    · by_cases hkn : k = n
      · subst hkn
        exact Buffer.read_write_same (by omega) _
      · rw [Buffer.read_write_other (by omega)]
        exact hin k (by omega) hb
    · rw [Buffer.read_write_other (by omega)]
      exact hout i (by omega)

@[simp] theorem writeSlot_length (c : Cfg) (j : Nat) (b : Bit) (m : Buffer) : (writeSlot c j b m).length = m.length :=
  (slotWrites c _ b m c.nSpb).1

/-- The elements of the slot (R171). -/
theorem writeSlot_read_in (c : Cfg) (j : Nat) (b : Bit) (m : Buffer) {k : Nat} (hk : k < c.nSpb)
    (hm : j * c.nSpb + k < m.length) :
    Buffer.read (writeSlot c j b m) (j * c.nSpb + k) = some (slotSample c b k) :=
  (slotWrites c _ b m c.nSpb).2.1 k hk hm

/-- Every other element of MAP is as before. -/
theorem writeSlot_read_out (c : Cfg) (j : Nat) (b : Bit) (m : Buffer) {i : Nat}
    (hi : i < j * c.nSpb ∨ (j + 1) * c.nSpb ≤ i) :
    Buffer.read (writeSlot c j b m) i = Buffer.read m i :=
  (slotWrites c _ b m c.nSpb).2.2 i (by rw [Nat.succ_mul] at hi; exact hi)

/-- Slots inside MAP: an element of slot `j` has an index below the end of slot `j`. -/
theorem slot_index_lt {j n spb k : Nat} (hj : j < n) (hk : k < spb) : j * spb + k < n * spb := by
  have : (j + 1) * spb ≤ n * spb := Nat.mul_le_mul_right spb hj
  rw [Nat.succ_mul] at this
  omega

/-- The first `n` preamble slots: loaded, and no value elsewhere (R342). -/
theorem preambleSlots (c : Cfg) {n : Nat} (hn : n ≤ c.nBits) :
    let r := (List.range n).foldl (fun m j => writeSlot c j (preambleBit c j) m) (Buffer.noValue c.lMap)
    r.length = c.lMap ∧
    (∀ j k, j < n → k < c.nSpb → Buffer.read r (j * c.nSpb + k) = some (slotSample c (preambleBit c j) k)) ∧
    (∀ i, n * c.nSpb ≤ i → Buffer.read r i = none) := by
  induction n with
  | zero => simp
  | succ n ih =>
    obtain ⟨hl, hin, hout⟩ := ih (by omega)
    simp only [List.range_succ, List.foldl_append, List.foldl_cons, List.foldl_nil]
    refine ⟨by simpa using hl, fun j k hj hk => ?_, fun i hi => ?_⟩
    · by_cases hjn : j = n
      · subst hjn
        refine writeSlot_read_in c j _ _ hk ?_
        rw [hl]
        exact slot_index_lt (by omega) hk
      · rw [writeSlot_read_out c n _ _ (.inl (slot_index_lt (by omega) hk))]
        exact hin j k (by omega) hk
    · rw [writeSlot_read_out c n _ _ (.inr hi)]
      exact hout i (by rw [Nat.succ_mul] at hi; omega)

theorem preambleMap_length (c : Cfg) (h : c.nPre ≤ c.nBits) : (preambleMap c).length = c.lMap :=
  (preambleSlots c h).1

theorem preambleMap_read_slot (c : Cfg) (h : c.nPre ≤ c.nBits) {j k : Nat} (hj : j < c.nPre) (hk : k < c.nSpb) :
    Buffer.read (preambleMap c) (j * c.nSpb + k) = some (slotSample c (preambleBit c j) k) :=
  (preambleSlots c h).2.1 j k hj hk

theorem preambleMap_read_rest (c : Cfg) (h : c.nPre ≤ c.nBits) {i : Nat} (hi : c.nPre * c.nSpb ≤ i) :
    Buffer.read (preambleMap c) i = none :=
  (preambleSlots c h).2.2 i hi

/-- Every element of slots below `n` is element `k` of some slot `j` below `n`. -/
theorem slot_of_index {n spb i : Nat} (hi : i < n * spb) : ∃ j k, j < n ∧ k < spb ∧ i = j * spb + k := by
  have hs : 0 < spb := Nat.pos_of_ne_zero (by rintro rfl; simp at hi)
  exact ⟨i / spb, i % spb, (Nat.div_lt_iff_lt_mul hs).mpr hi, Nat.mod_lt i hs, (Nat.div_add_mod' i spb).symm⟩

end Sys2Proof.Machine
end

