-- ==== Sys2Proof/Laws/Modulator.lean ====
section
/-! SUPPORT. What the modulator's operations do and what they leave alone (41_modulator.md R173, R174, R177), and that each keeps
the modulator's invariant (10_state.md R38). -/
namespace Sys2Proof.Machine

/-- `add_bit` with room (R173). -/
theorem addBit_room {s : State} (b : Bit) (h : s.mod.buffI ≠ s.cfg.nBits) :
    addBit b s = s.setMod
      { s.mod with map := writeSlot s.cfg s.mod.buffI b s.mod.map, buffI := s.mod.buffI + 1 } := by
  simp [addBit, h]

/-- `add_bit` on a full buffer: only FAULT changes (R173, R301). -/
theorem addBit_full {s : State} (b : Bit) (h : s.mod.buffI = s.cfg.nBits) : addBit b s = s.raise .bufferFull := by
  simp [addBit, h]

@[simp] theorem addBit_cfg (b : Bit) (s : State) : (addBit b s).cfg = s.cfg := by unfold addBit; split <;> rfl
@[simp] theorem addBit_mode (b : Bit) (s : State) : (addBit b s).mode = s.mode := by unfold addBit; split <;> rfl
@[simp] theorem addBit_dem (b : Bit) (s : State) : (addBit b s).dem = s.dem := by unfold addBit; split <;> rfl
@[simp] theorem addBit_seq (b : Bit) (s : State) : (addBit b s).seq = s.seq := by unfold addBit; split <;> rfl
@[simp] theorem addBit_env (b : Bit) (s : State) : (addBit b s).env = s.env := by unfold addBit; split <;> rfl
@[simp] theorem addBit_outI (b : Bit) (s : State) : (addBit b s).mod.outI = s.mod.outI := by
  unfold addBit; split <;> rfl
@[simp] theorem addBit_filt (b : Bit) (s : State) : (addBit b s).mod.filt = s.mod.filt := by
  unfold addBit; split <;> rfl

/-- FAULT after `add_bit`: as before, or BUFFER_FULL (R306). -/
theorem addBit_fault (b : Bit) (s : State) : (addBit b s).fault = s.fault ∨ (addBit b s).fault = .bufferFull := by
  unfold addBit; split
  · exact .inr rfl
  · exact .inl rfl

/-- What every `add_bit` keeps, `add_byte` keeps (R174). -/
theorem addByte_keeps {P : State → Prop} (v : Byte) {s : State} (h : P s) (hstep : ∀ t b, P t → P (addBit b t)) :
    P (addByte v s) := by
  unfold addByte
  induction byteBits v generalizing s with
  | nil => exact h
  | cons b rest ih => exact ih (hstep s b h)

@[simp] theorem addByte_cfg (v : Byte) (s : State) : (addByte v s).cfg = s.cfg :=
  addByte_keeps (P := fun t => t.cfg = s.cfg) v rfl (fun _ _ h => by simpa using h)
@[simp] theorem addByte_mode (v : Byte) (s : State) : (addByte v s).mode = s.mode :=
  addByte_keeps (P := fun t => t.mode = s.mode) v rfl (fun _ _ h => by simpa using h)
@[simp] theorem addByte_dem (v : Byte) (s : State) : (addByte v s).dem = s.dem :=
  addByte_keeps (P := fun t => t.dem = s.dem) v rfl (fun _ _ h => by simpa using h)
@[simp] theorem addByte_seq (v : Byte) (s : State) : (addByte v s).seq = s.seq :=
  addByte_keeps (P := fun t => t.seq = s.seq) v rfl (fun _ _ h => by simpa using h)
@[simp] theorem addByte_env (v : Byte) (s : State) : (addByte v s).env = s.env :=
  addByte_keeps (P := fun t => t.env = s.env) v rfl (fun _ _ h => by simpa using h)
@[simp] theorem addByte_outI (v : Byte) (s : State) : (addByte v s).mod.outI = s.mod.outI :=
  addByte_keeps (P := fun t => t.mod.outI = s.mod.outI) v rfl (fun _ _ h => by simpa using h)
@[simp] theorem addByte_filt (v : Byte) (s : State) : (addByte v s).mod.filt = s.mod.filt :=
  addByte_keeps (P := fun t => t.mod.filt = s.mod.filt) v rfl (fun _ _ h => by simpa using h)

/-- FAULT after `add_byte` (R174, R306). -/
theorem addByte_fault (v : Byte) (s : State) : (addByte v s).fault = s.fault ∨ (addByte v s).fault = .bufferFull :=
  addByte_keeps (P := fun t => t.fault = s.fault ∨ t.fault = .bufferFull) v (.inl rfl) fun t b h => by
    rcases addBit_fault b t with k | k
    · rwa [k]
    · exact .inr k

/-- `add_bit` of each bit of a list, with room for all of them: the cursor moves on by their number, FAULT is untouched (R174). -/
theorem addBits_room (bs : List Bit) {s : State} (h : s.mod.buffI + bs.length ≤ s.cfg.nBits) :
    (bs.foldl (fun s b => addBit b s) s).mod.buffI = s.mod.buffI + bs.length ∧
    (bs.foldl (fun s b => addBit b s) s).fault = s.fault := by
  induction bs generalizing s with
  | nil => simp
  | cons b bs ih =>
    simp only [List.length_cons] at h
    have hb : s.mod.buffI ≠ s.cfg.nBits := by omega
    have hrest := @ih (addBit b s) (by rw [addBit_cfg, addBit_room b hb]; simp only [State.setMod_mod]; omega)
    simp only [List.foldl_cons, hrest.1, hrest.2, List.length_cons]
    rw [addBit_room b hb]
    simp only [State.setMod_mod, State.setMod_fault, and_true]
    omega

/-- `add_byte` with room for the whole byte (R174). -/
theorem addByte_room (v : Byte) {s : State} (h : s.mod.buffI + 8 ≤ s.cfg.nBits) :
    (addByte v s).mod.buffI = s.mod.buffI + 8 ∧ (addByte v s).fault = s.fault := by
  have hlen : (byteBits v).length = 8 := by simp [byteBits]
  have key := addBits_room (byteBits v) (s := s) (by rw [hlen]; exact h)
  rw [hlen] at key
  unfold addByte
  exact key

/-- `add_bit` keeps the modulator's invariant (R38). -/
theorem addBit_keeps_inv (b : Bit) {s : State} (h : s.mod.Inv s.cfg) : (addBit b s).mod.Inv s.cfg := by
  by_cases hb : s.mod.buffI = s.cfg.nBits
  · rw [addBit_full b hb]; exact h
  · have hlt : s.mod.buffI < s.cfg.nBits := lt_of_le_of_ne h.buffHigh hb
    have hout : s.mod.outI = 0 := by
      by_contra k; exact hb (h.streaming k)
    have hpre : s.cfg.nPre * s.cfg.nSpb ≤ s.mod.buffI * s.cfg.nSpb := Nat.mul_le_mul_right _ h.buffLow
    rw [addBit_room b hb]
    refine ⟨by simpa using h.mapLength, Nat.le_succ_of_le h.buffLow, hlt, h.outRange, fun k => absurd hout k, ?_, ?_,
      h.filtIdle, fun k => absurd hout k⟩
    · intro i hi
      by_cases hslot : i < s.mod.buffI * s.cfg.nSpb
      · rw [State.setMod_mod, writeSlot_read_out _ _ _ _ (.inl hslot)]
        exact h.mapFilled i hslot
      · obtain ⟨k, rfl⟩ : ∃ k, i = s.mod.buffI * s.cfg.nSpb + k := ⟨i - s.mod.buffI * s.cfg.nSpb, by omega⟩
        have hk : k < s.cfg.nSpb := by
          have := hi; simp only [State.setMod_mod, Nat.succ_mul] at this; omega
        rw [State.setMod_mod, writeSlot_read_in _ _ _ _ hk (by rw [h.mapLength]; exact slot_index_lt hlt hk)]
        rfl
    · intro i hi
      rw [State.setMod_mod, writeSlot_read_out _ _ _ _ (.inl (by omega))]
      exact h.preambleKept i hi

/-- `add_byte` keeps the modulator's invariant (R38). -/
theorem addByte_keeps_inv (v : Byte) {s : State} (h : s.mod.Inv s.cfg) : (addByte v s).mod.Inv s.cfg :=
  (addByte_keeps (P := fun t => t.cfg = s.cfg ∧ t.mod.Inv s.cfg) v ⟨rfl, h⟩ fun t b ht =>
    ⟨by simpa using ht.1, by have := addBit_keeps_inv b (s := t) (ht.1 ▸ ht.2); rwa [ht.1] at this⟩).2

/-- `get_sample` before a frame is complete: only FAULT changes (R177, R302). -/
theorem getSample_not_valid {s : State} (h : s.mod.buffI ≠ s.cfg.nBits) :
    getSample s = .ok (s.raise .getSampleWithoutDataValid, 0) := by
  simp [getSample, h]

/-- The whole MAP buffer can be read when the symbol buffer is full (R57). -/
theorem map_readable {c : Cfg} {m : ModState} (h : m.Inv c) (hb : m.buffI = c.nBits) :
    ∃ xs, Buffer.readFirst m.map c.lMap = some xs := by
  rw [← Option.isSome_iff_exists, Buffer.readFirst_isSome_iff]
  intro i hi
  exact h.mapFilled i (by rw [hb]; exact hi)

/-- `get_sample` of a complete frame: it returns sample OUT_I of conv(MAP, PF), on the first call and on every later one
(R177). -/
theorem getSample_valid {s : State} (h : s.mod.Inv s.cfg) (hb : s.mod.buffI = s.cfg.nBits) :
    ∃ xs v, Buffer.readFirst s.mod.map s.cfg.lMap = some xs ∧ (conv xs s.cfg.pf)[s.mod.outI]? = some v ∧
      getSample s = .ok (advanceOut (s.setMod { s.mod with filt := Buffer.ofValues (conv xs s.cfg.pf) }), v) := by
  obtain ⟨xs, hxs⟩ := map_readable h hb
  have hlen : xs.length = s.cfg.lMap := (Buffer.readFirst_getElem? hxs).1
  have hout : s.mod.outI < (conv xs s.cfg.pf).length := by
    have := h.outRange
    simp only [conv_length, hlen, Cfg.lFilt, Cfg.lPf] at this ⊢
    omega
  refine ⟨xs, (conv xs s.cfg.pf)[s.mod.outI], hxs, List.getElem?_eq_getElem hout, ?_⟩
  have hframe : computeFrame s = .ok (s.setMod { s.mod with filt := Buffer.ofValues (conv xs s.cfg.pf) }) := by
    unfold computeFrame
    by_cases h0 : s.mod.outI = 0
    · simp [h0, hxs]
    · have := h.filtFrame h0
      simp only [hxs, Option.map_some, Option.some.injEq] at this
      rw [if_neg h0, this]
      rfl
  unfold getSample
  rw [if_neg (by simpa using hb), hframe]
  simp [Buffer.read_ofValues, List.getElem?_eq_getElem hout]

@[simp] theorem advanceOut_cfg (s : State) : (advanceOut s).cfg = s.cfg := by unfold advanceOut; split <;> rfl
@[simp] theorem advanceOut_mode (s : State) : (advanceOut s).mode = s.mode := by unfold advanceOut; split <;> rfl
@[simp] theorem advanceOut_dem (s : State) : (advanceOut s).dem = s.dem := by unfold advanceOut; split <;> rfl
@[simp] theorem advanceOut_fault (s : State) : (advanceOut s).fault = s.fault := by unfold advanceOut; split <;> rfl
@[simp] theorem advanceOut_seq (s : State) : (advanceOut s).seq = s.seq := by unfold advanceOut; split <;> rfl
@[simp] theorem advanceOut_env (s : State) : (advanceOut s).env = s.env := by unfold advanceOut; split <;> rfl
@[simp] theorem advanceOut_map (s : State) : (advanceOut s).mod.map = s.mod.map := by
  unfold advanceOut; split <;> rfl

/-- What `get_sample` never touches, whichever way it goes. -/
theorem getSample_frame {s t : State} {v : Sample} (h : getSample s = .ok (t, v)) :
    t.cfg = s.cfg ∧ t.mode = s.mode ∧ t.dem = s.dem ∧ t.seq = s.seq ∧ t.env = s.env ∧ t.mod.map = s.mod.map := by
  unfold getSample computeFrame at h
  split at h
  · simp only [Except.ok.injEq, Prod.mk.injEq] at h; rw [← h.1]; exact ⟨rfl, rfl, rfl, rfl, rfl, rfl⟩
  · split at h
    · cases h
    · rename_i s1 hs1
      split at h
      · cases h
      · simp only [Except.ok.injEq, Prod.mk.injEq] at h
        rw [← h.1]
        split at hs1
        · split at hs1
          · cases hs1; simp
          · cases hs1
        · cases hs1; simp

/-- The end of a `get_sample` keeps the modulator's invariant (R38, R177). -/
theorem advanceOut_keeps_inv {s : State} {xs : List Sample} (h : s.mod.Inv s.cfg)
    (hb : s.mod.buffI = s.cfg.nBits) (hp : s.cfg.nPre ≤ s.cfg.nBits)
    (hxs : Buffer.readFirst s.mod.map s.cfg.lMap = some xs) :
    (advanceOut (s.setMod { s.mod with filt := Buffer.ofValues (conv xs s.cfg.pf) })).mod.Inv s.cfg := by
  have hr := h.outRange
  unfold advanceOut
  split
  · refine ⟨h.mapLength, le_refl _, hp, ?_, fun k => absurd rfl k, ?_, h.preambleKept, fun _ => rfl, fun k => absurd rfl k⟩
    · simp only [State.setMod_mod]; omega
    · intro i hi
      refine h.mapFilled i (lt_of_lt_of_le hi ?_)
      rw [hb]
      exact Nat.mul_le_mul_right _ hp
  · rename_i hlast
    simp only [State.setMod_mod, State.setMod_cfg] at hlast
    refine ⟨h.mapLength, h.buffLow, h.buffHigh, ?_, fun _ => hb, h.mapFilled, h.preambleKept, ?_, ?_⟩
    · simp only [State.setMod_mod]; omega
    · intro k; simp at k
    · intro _; simp [hxs]

/-- `get_sample` keeps the modulator's invariant and never meets an element without a value (R38, R57). -/
theorem getSample_keeps_inv {s : State} (h : s.mod.Inv s.cfg) (hp : s.cfg.nPre ≤ s.cfg.nBits) :
    ∃ t v, getSample s = .ok (t, v) ∧ t.mod.Inv s.cfg := by
  by_cases hb : s.mod.buffI = s.cfg.nBits
  · obtain ⟨xs, v, hxs, -, hg⟩ := getSample_valid h hb
    exact ⟨_, v, hg, advanceOut_keeps_inv h hb hp hxs⟩
  · exact ⟨_, 0, getSample_not_valid hb, h⟩

end Sys2Proof.Machine
end

