-- ==== Sys2Proof/Laws/PerInstr.lean ====
section
/-! SUPPORT. Statements per instruction, as syntax. Family OneRow: the word of an instruction belongs to the row of its own
mnemonic and to no other row of the opcode table (30_encoding.md R103, R105). -/
namespace Sys2Proof.Laws.OneRow

/-- The rows the instruction's word matches are exactly the one row of its mnemonic. -/
def Statement (i : Instr) : Prop :=
  (opcodeTable.filter (fun r => r.matchesWord (encode i))).map (fun r => r.mnemonic) = [mnemonicOf i]

theorem modAddBit (b : Bit) : Statement (.modAddBit b) := by
  cases b <;> unfold Statement <;> decide

/-- A word of format F32 matches no row whose OP bits differ under the row's mask. -/
theorem not_matches {r : OpcodeRow} {op : Byte} {data : BitVec 16}
    (h : op &&& r.mask.extractLsb' 24 8 ≠ r.pattern.extractLsb' 24 8) : r.matchesWord (encodeF32 op data) = false := by
  have hop : (encodeF32 op data).extractLsb' 24 8 = op := by
    unfold encodeF32
    ext i hi
    have hd : data.getLsbD (24 + i) = false := BitVec.getLsbD_of_ge data (24 + i) (by omega)
    simp [hd, ← BitVec.getLsbD_eq_getElem, show 24 + i < 32 from by omega, hi]
    omega
  simp only [OpcodeRow.matchesWord, beq_eq_false_iff_ne, ne_eq]
  intro heq
  apply h
  rw [← heq, BitVec.extractLsb'_and, hop]

/-- OP and RSV of a word of format F32, under the mask that keeps just them. -/
theorem encodeF32_top (op : Byte) (data : BitVec 16) : encodeF32 op data &&& 0xFFFF0000 = encodeF32 op 0 := by
  refine BitVec.eq_of_getLsbD_eq fun i hi => ?_
  have hm : (0xFFFF0000 : Word).getLsbD i = decide (16 ≤ i) := by revert i; decide
  unfold encodeF32
  by_cases h : 16 ≤ i
  · rw [BitVec.getLsbD_and, hm]
    simp [h]
  · rw [BitVec.getLsbD_and, hm]
    simp [h, show i < 24 by omega]

theorem modAddByte (v : Byte) : Statement (.modAddByte v) := by
  revert v; unfold Statement; decide

theorem modIsRfd : Statement .modIsRfd := by unfold Statement; decide
theorem modIsDv : Statement .modIsDv := by unfold Statement; decide
theorem modGetSample : Statement .modGetSample := by unfold Statement; decide

theorem demFeedSample (v : Sample) : Statement (.demFeedSample v) := by
  have own : (⟨"DEM_FEED_SAMPLE", 0x11000000, 0xFFFF0000, fun w => .demFeedSample (sampleOperand w)⟩ : OpcodeRow).matchesWord
      (encodeF32 0x11 v) = true := by
    simp only [OpcodeRow.matchesWord, beq_iff_eq]
    exact (encodeF32_top 0x11 v).trans (by decide)
  unfold Statement opcodeTable
  simp only [encode, opNumber, dataOf, List.filter_cons, List.filter_nil, own]
  repeat rw [not_matches (by decide)]
  rfl

theorem demIsDa : Statement .demIsDa := by unfold Statement; decide
theorem demGetBit : Statement .demGetBit := by unfold Statement; decide
theorem rdFault : Statement .rdFault := by unfold Statement; decide
theorem rdDetpwr : Statement .rdDetpwr := by unfold Statement; decide

end Sys2Proof.Laws.OneRow
end

