-- ==== Sys2Proof/Laws/Step.lean ====
section
/-! SUPPORT. What a step can do, said once: the moves (Machine/Agents.lean), and the frame every command shares
(30_encoding.md R104, 10_state.md R52, R53). -/
namespace Sys2Proof.Machine

/-- A move that answers a next state is one of these. -/
theorem performMove_next {m : Move} {s t : State} (h : performMove m s = .next t) :
    (∃ w i, m = .command w ∧ s.mode = .command ∧ decode w = .ok i ∧ exec i s = .next t) ∨
    (m = .reset ∧ t = s.resetEvent) ∨
    (m = .seq ∧ s.mode = .scheduled ∧ seqStep s = .next t) ∨
    (m = .clk ∧ s.mode = .scheduled ∧ t = clkStep s) ∨
    ((m = .seq ∨ m = .clk) ∧ s.mode = .command ∧ t = s) := by
  cases m with
  | command w =>
    simp only [performMove, offerCommand] at h
    split at h
    · cases h
    · rename_i hm
      split at h
      · cases h
      · rename_i i hi; exact .inl ⟨w, i, rfl, hm, hi, h⟩
  | reset =>
    simp only [performMove, Host.Outcome.next.injEq] at h
    exact .inr (.inl ⟨rfl, h.symm⟩)
  | seq =>
    simp only [performMove] at h
    split at h
    · rename_i hm; exact .inr (.inr (.inl ⟨rfl, hm, h⟩))
    · rename_i hm
      simp only [Host.Outcome.next.injEq] at h
      exact .inr (.inr (.inr (.inr ⟨.inl rfl, hm, h.symm⟩)))
  | clk =>
    simp only [performMove] at h
    split at h
    · rename_i hm
      simp only [Host.Outcome.next.injEq] at h
      exact .inr (.inr (.inr (.inl ⟨rfl, hm, h.symm⟩)))
    · rename_i hm
      simp only [Host.Outcome.next.injEq] at h
      exact .inr (.inr (.inr (.inr ⟨.inr rfl, hm, h.symm⟩)))

/-- A step runs the oldest move of the agenda, or waits (COMMAND mode), or runs the sequencer or the clock (SCHEDULED
mode), and only in an accepted configuration. -/
theorem step_runs {s : State} (ha : s.cfg.Accepted) :
    (∃ m rest, s.env.agenda = m :: rest ∧ step s = performMove m (s.setAgenda rest)) ∨
    (s.env.agenda = [] ∧ s.mode = .command ∧ step s = .next s) ∨
    (s.env.agenda = [] ∧ s.mode = .scheduled ∧
      (step s = performMove .seq s.countDraw ∨ step s = performMove .clk s.countDraw)) := by
  have hg : step s = agentStep s := by
    unfold step guardedStep
    rw [if_pos ha.1, if_pos ha.2]
  rw [hg]
  unfold agentStep unscheduledMove
  split
  · rename_i m rest heq; exact .inl ⟨m, rest, heq, rfl⟩
  · rename_i heq
    split
    · rename_i hm; exact .inr (.inl ⟨heq, hm, rfl⟩)
    · rename_i hm
      refine .inr (.inr ⟨heq, hm, ?_⟩)
      cases Config.freeSeqMoves s.env.draws
      · exact .inr rfl
      · exact .inl rfl

/-- A configuration that is not accepted is refused (R10, R133). -/
theorem step_not_accepted {s : State} (ha : ¬ s.cfg.Accepted) :
    step s = .refused .illFormedConfiguration ∨ step s = .refused .bufferOutsideSpec := by
  unfold step guardedStep
  by_cases hw : s.cfg.WellFormed
  · rw [if_pos hw, if_neg (fun hb => ha ⟨hw, hb⟩)]; exact .inr rfl
  · rw [if_neg hw]; exact .inl rfl

/-! One command at a time, in terms of its operation. -/

theorem exec_modAddBit (b : Bit) (s : State) :
    exec (.modAddBit b) s = .next ((addBit b s).emit (.response voidResponse)) := rfl

theorem exec_modAddByte (v : Byte) (s : State) :
    exec (.modAddByte v) s = .next ((addByte v s).emit (.response voidResponse)) := rfl

theorem exec_modIsRfd (s : State) : exec .modIsRfd s = .next (s.emit (.response (boolResponse (rfd s)))) := rfl

theorem exec_modIsDv (s : State) : exec .modIsDv s = .next (s.emit (.response (boolResponse (modDv s)))) := rfl

theorem exec_demIsDa (s : State) : exec .demIsDa s = .next (s.emit (.response (boolResponse (demDa s)))) := rfl

theorem exec_rdFault (s : State) : exec .rdFault s = .next (s.emit (.response (faultWord s))) := rfl

theorem exec_rdDetpwr (s : State) : exec .rdDetpwr s = .next (s.emit (.response s.dem.detPower)) := rfl

theorem exec_modGetSample_ok {s t : State} {v : Sample} (h : getSample s = .ok (t, v)) :
    exec .modGetSample s = .next (t.emit (.response v)) := by
  simp only [exec, execModGetSample, h]
  rfl

theorem exec_demFeedSample_ok {s t : State} {v : Sample} (h : feedSample v s = .ok t) :
    exec (.demFeedSample v) s = .next (t.emit (.response voidResponse)) := by
  simp only [exec, execDemFeedSample, h]
  rfl

theorem exec_demGetBit_ok {s t : State} {b : Bit} (h : getBit s = .ok (t, b)) :
    exec .demGetBit s = .next (t.emit (.response (boolResponse b))) := by
  simp only [exec, execDemGetBit, h]
  rfl

/-- What `exec` answers, said once: the state of the command's operation with one response appended, or the operation's model
fault. -/
theorem exec_cases (i : Instr) (s : State) :
    (∃ t r, exec i s = .next (t.emit (.response r)) ∧
      ((∃ b, i = .modAddBit b ∧ t = addBit b s ∧ r = voidResponse) ∨
       (∃ v, i = .modAddByte v ∧ t = addByte v s ∧ r = voidResponse) ∨
       (i = .modIsRfd ∧ t = s ∧ r = boolResponse (rfd s)) ∨
       (i = .modIsDv ∧ t = s ∧ r = boolResponse (modDv s)) ∨
       (∃ v, i = .modGetSample ∧ getSample s = .ok (t, v) ∧ r = v) ∨
       (∃ v, i = .demFeedSample v ∧ feedSample v s = .ok t ∧ r = voidResponse) ∨
       (i = .demIsDa ∧ t = s ∧ r = boolResponse (demDa s)) ∨
       (∃ b, i = .demGetBit ∧ getBit s = .ok (t, b) ∧ r = boolResponse b) ∨
       (i = .rdFault ∧ t = s ∧ r = faultWord s) ∨
       (i = .rdDetpwr ∧ t = s ∧ r = s.dem.detPower))) ∨
    (∃ f, exec i s = .fault f ∧
      ((i = .modGetSample ∧ getSample s = .error f) ∨
       (∃ v, i = .demFeedSample v ∧ feedSample v s = .error f) ∨
       (i = .demGetBit ∧ getBit s = .error f))) := by
  cases i with
  | modAddBit b => exact .inl ⟨addBit b s, voidResponse, exec_modAddBit b s, .inl ⟨b, rfl, rfl, rfl⟩⟩
  | modAddByte v => exact .inl ⟨addByte v s, voidResponse, exec_modAddByte v s, by simp⟩
  | modIsRfd => exact .inl ⟨s, _, exec_modIsRfd s, by simp⟩
  | modIsDv => exact .inl ⟨s, _, exec_modIsDv s, by simp⟩
  | demIsDa => exact .inl ⟨s, _, exec_demIsDa s, by simp⟩
  | rdFault => exact .inl ⟨s, _, exec_rdFault s, by simp⟩
  | rdDetpwr => exact .inl ⟨s, _, exec_rdDetpwr s, by simp⟩
  | modGetSample =>
    cases h : getSample s with
    | ok p => exact .inl ⟨p.1, p.2, exec_modGetSample_ok h, by simp⟩
    | error f => exact .inr ⟨f, by simp only [exec, execModGetSample, h]; rfl, by simp⟩
  | demFeedSample v =>
    cases h : feedSample v s with
    | ok t => exact .inl ⟨t, voidResponse, exec_demFeedSample_ok h, by simp [h]⟩
    | error f => exact .inr ⟨f, by simp only [exec, execDemFeedSample, h]; rfl, by simp [h]⟩
  | demGetBit =>
    cases h : getBit s with
    | ok p =>
      refine .inl ⟨p.1, boolResponse p.2, exec_demGetBit_ok h, ?_⟩
      right; right; right; right; right; right; right; left
      exact ⟨p.2, rfl, rfl, rfl⟩
    | error f => exact .inr ⟨f, by simp only [exec, execDemGetBit, h]; rfl, by simp⟩

/-- What every command leaves alone, whatever it does: the parameters, the sequencer and the environment but for one response
(R52, R53, R104). -/
theorem exec_next_frame {i : Instr} {s t : State} (h : exec i s = .next t) :
    t.cfg = s.cfg ∧ t.mode = s.mode ∧ t.seq = s.seq ∧
      ∃ r, t.env = { s.env with trace := s.env.trace ++ [.response r] } := by
  rcases exec_cases i s with ⟨u, r, he, hu⟩ | ⟨f, he, -⟩
  · rw [he, Host.Outcome.next.injEq] at h
    subst h
    have key : u.cfg = s.cfg ∧ u.mode = s.mode ∧ u.seq = s.seq ∧ u.env = s.env := by
      rcases hu with ⟨b, -, rfl, -⟩ | ⟨v, -, rfl, -⟩ | ⟨-, rfl, -⟩ | ⟨-, rfl, -⟩ | ⟨v, -, hg, -⟩ | ⟨v, -, hg, -⟩ |
        ⟨-, rfl, -⟩ | ⟨b, -, hg, -⟩ | ⟨-, rfl, -⟩ | ⟨-, rfl, -⟩
      · simp
      · simp
      · simp
      · simp
      · obtain ⟨hc, hm, -, hs, he, -⟩ := getSample_frame hg; exact ⟨hc, hm, hs, he⟩
      · obtain ⟨hc, hm, -, hs, he⟩ := feedSample_frame hg; exact ⟨hc, hm, hs, he⟩
      · simp
      · obtain ⟨hc, hm, -, hs, he⟩ := getBit_frame hg; exact ⟨hc, hm, hs, he⟩
      · simp
      · simp
    obtain ⟨hc, hm, hs, hv⟩ := key
    exact ⟨by rw [State.emit_cfg, hc], by rw [State.emit_mode, hm], by rw [State.emit_seq, hs], r,
      by rw [State.emit_env, hv]⟩
  · rw [he] at h; cases h

/-- A run whose first step answers a next state goes on from that state. -/
theorem core_run_next (k : Nat) {s t : State} (h : step s = .next t) :
    Host.Core.run Sys2Proof.core (k + 1) s = Host.Core.run Sys2Proof.core k t := by
  have hstep : Sys2Proof.core.step s = .next t := h
  simp only [Host.Core.run, hstep]

/-- The oldest move of the agenda runs (R13), in an accepted configuration. -/
theorem step_of_agenda {s : State} {m : Move} {rest : List Move} (ha : s.cfg.Accepted) (h : s.env.agenda = m :: rest) :
    step s = performMove m (s.setAgenda rest) := by
  rcases step_runs ha with ⟨m', rest', hr, hs⟩ | ⟨hr, -⟩ | ⟨hr, -⟩
  · rw [h] at hr
    obtain ⟨rfl, rfl⟩ := List.cons.inj hr
    exact hs
  · rw [h] at hr; cases hr
  · rw [h] at hr; cases hr

end Sys2Proof.Machine
end

