-- ==== Sys2Proof/Tests/Slice0.lean ====
section
/-! SUPPORT. The model's own tests, expected values from 30_encoding.md R103, R105, R108 and from 95_test_vectors.md (the vector
is named beside each), and a witness for every statement that has hypotheses. -/
namespace Sys2Proof.Tests
open Sys2Proof Sys2Proof.Machine

/-! ## Helpers -/

/-- Why an outcome stops, if it is a refusal. -/
def refusalOf : StepOutcome → Option Refusal
  | .refused r => some r
  | .next _ => none
  | .fault _ => none

/-- The model fault of an outcome, if it is one. -/
def faultOf : StepOutcome → Option Fault
  | .fault f => some f
  | .next _ => none
  | .refused _ => none

/-- The state a list of commands leaves, from a given state. -/
def after (p : List Instr) (s : State) : State := (nextState (execAll p s)).getD s

/-- The responses of a run, oldest first. -/
def responsesOf (s : State) : List Response :=
  s.env.trace.filterMap fun e =>
    match e with
    | .response r => some r
    | .input _ | .inbound _ | .bit _ | .output _ => none

/-- The machine of a configuration in COMMAND mode after reset. -/
def fresh (c : Cfg) : State := .resetOf c .command

/-- TV in SCHEDULED mode at a given tick step, CYC at 5, one sequencer move offered. -/
def atStep (q : TickStep) : State :=
  { State.resetOf .tv .scheduled with
    seq := { step := q, cyc := some 5 }, env := { Env.initial with agenda := [.seq], samples := [0x4000] } }

/-- TV with its frame full and nothing streamed. -/
def full : State := after [.modAddBit true, .modAddBit false] .reset

/-- TV with its frame streaming: one sample out. -/
def streaming : State := after [.modGetSample] full

/-- TV with a decoded bit waiting (vector W1). -/
def holding : State := after [.demFeedSample 0x4000, .demFeedSample 0x4000] .reset

/-- TV with one sample in the window. -/
def halfWindow : State := after [.demFeedSample 0x4000] .reset

/-- TV with one silent sample in the window. -/
def quietHalf : State := after [.demFeedSample 0] .reset

/-- The state in SCHEDULED mode at a given step, with one sequencer move offered. -/
def scheduled (s : State) (q : TickStep) : State :=
  { s with
    mode := .scheduled, seq := { step := q, cyc := some 5 },
    env := { Env.initial with agenda := [.seq], samples := [0x4000], inbound := [some 0xA5] } }

/-! ## Decoding, word by word from R103 -/

theorem test_decode_modAddBit :
    (decode 0b00000001000000000000000000000001).toOption = some (.modAddBit true) ∧
    (decode 0b00000001000000000000000000000000).toOption = some (.modAddBit false) := by decide
theorem test_decode_modAddByte :
    (decode 0b00000010000000000000000010100101).toOption = some (.modAddByte 0xA5) := by decide
theorem test_decode_modIsRfd : (decode 0b00000011000000000000000000000000).toOption = some .modIsRfd := by decide
theorem test_decode_modIsDv : (decode 0b00000100000000000000000000000000).toOption = some .modIsDv := by decide
theorem test_decode_modGetSample :
    (decode 0b00000101000000000000000000000000).toOption = some .modGetSample := by decide
theorem test_decode_demFeedSample :
    (decode 0b00010001000000001111111111111111).toOption = some (.demFeedSample (-1)) ∧
    (decode 0b00010001000000001000000000000000).toOption = some (.demFeedSample (-32768)) := by decide
theorem test_decode_demIsDa : (decode 0b00010010000000000000000000000000).toOption = some .demIsDa := by decide
theorem test_decode_demGetBit : (decode 0b00010011000000000000000000000000).toOption = some .demGetBit := by decide
theorem test_decode_rdFault : (decode 0b00100001000000000000000000000000).toOption = some .rdFault := by decide
theorem test_decode_rdDetpwr : (decode 0b00100010000000000000000000000000).toOption = some .rdDetpwr := by decide

/-- 95_test_vectors.md section 2.2, the ILLEGAL rows, each refused by its own name. -/
theorem test_decode_illegal_data :
    [(0x01000002 : Word), 0x02000100, 0x05000001, 0x22000001].map (fun w => (decode w).toOption) =
      [none, none, none, none] ∧
    decode 0x01000002 = .error (.dataNotZero 0x01) := ⟨by decide, rfl⟩
theorem test_decode_illegal_reserved : decode 0x11010000 = .error (.reservedNotZero 0x11) := rfl
theorem test_decode_illegal_op :
    [(0x00000000 : Word), 0x06000000, 0x10000000, 0x14000000, 0x20000000, 0x23000000, 0xFFFFFFFF].map
      (fun w => (decode w).toOption) = [none, none, none, none, none, none, none] := by decide

/-- R108, its two examples. -/
theorem test_assemble_examples :
    (assemble ["MOD_ADD_BYTE 0xA5".toList, "DEM_FEED_SAMPLE -1 ; a comment".toList]).toOption =
      some [0x020000A5, 0x1100FFFF] := by decide +kernel
theorem test_assemble_range :
    (parseLine "MOD_ADD_BYTE 256".toList).toOption = none ∧ (parseLine "MOD_ADD_BIT 2".toList).toOption = none ∧
    (parseLine "DEM_FEED_SAMPLE 32768".toList).toOption = none ∧
    (parseLine "DEM_FEED_SAMPLE -32768".toList).toOption = some (some (.demFeedSample (-32768))) := by decide +kernel

theorem test_print_parse :
    [Instr.modAddBit true, .modAddByte 0xA5, .demFeedSample 0x8000, .rdFault].map (fun i => (parseLine (printLine i)).toOption) =
      [some (some (.modAddBit true)), some (some (.modAddByte 0xA5)), some (some (.demFeedSample 0x8000)),
        some (some .rdFault)] := by decide +kernel

/-- The host's reading of a table row, and the word placed where the next step takes it. -/
theorem test_table_word : decodeTableWord 32 0x020000A5 = some (.modAddByte 0xA5) ∧ decodeTableWord 32 0x06000000 = none := by
  decide
theorem test_fetch_word :
    (nextState (step (State.reset.withFetchWord 32 0x01000001))).map (fun t => t.mod.buffI) = some 5 := by decide

/-! ## WellFormed: one ill-formed term per check, refused -/

/-- TV with one field spoiled, then one step. -/
def refusedFor (c : Cfg) : Option Refusal := refusalOf (step (State.resetOf c .command))

theorem test_illFormed_nSpb : refusedFor { Cfg.tv with nSpb := 0 } = some .illFormedConfiguration := by decide
theorem test_illFormed_nBits : refusedFor { Cfg.tv with nBits := 0, nPre := 0 } = some .illFormedConfiguration := by decide
theorem test_illFormed_lPf : refusedFor { Cfg.tv with pf := [] } = some .illFormedConfiguration := by decide
theorem test_illFormed_lMf : refusedFor { Cfg.tv with mf := [] } = some .illFormedConfiguration := by decide
theorem test_illFormed_nPre_one : refusedFor { Cfg.tv with nPre := 1 } = some .illFormedConfiguration := by decide
theorem test_illFormed_nPre_large : refusedFor { Cfg.tv with nPre := 6 } = some .illFormedConfiguration := by decide
theorem test_illFormed_pwrLo : refusedFor { Cfg.tv with pwrLo := 49 } = some .illFormedConfiguration := by decide
theorem test_illFormed_tickCycles_zero :
    refusedFor { Cfg.tv with tickCycles := 0 } = some .illFormedConfiguration := by decide
theorem test_illFormed_tickCycles_large :
    refusedFor { Cfg.tv with tickCycles := 4294967296 } = some .illFormedConfiguration := by decide
theorem test_outsideSpec_buffers :
    refusalOf (step { State.reset with cfg := { Cfg.tv with nBits := 8589934592 } }) = some .bufferOutsideSpec := by decide
theorem test_wellFormed_tv : Cfg.tv.Accepted ∧ Cfg.tv8.Accepted ∧ ({ Cfg.tv with nPre := 0 } : Cfg).Accepted := by decide
theorem test_refused_illegal_word :
    refusalOf (step (State.reset.withFetchWord 32 0x11010000)) =
      some (.illegalWord 0x11010000 (.reservedNotZero 0x11)) := by decide
theorem test_refused_scheduled :
    refusalOf (step { State.resetOf .tv .scheduled with
      env := { Env.initial with agenda := [.command 0x03000000] } }) = some .commandInScheduledMode := by decide

/-! ## Q15 arithmetic (vectors A1 to A26) -/

theorem test_sat16 : sat16 65534 = 32767 ∧ sat16 (-32769) = -32768 := by decide
theorem test_asr : asr (-17) 4 = -2 ∧ asr 15 4 = 0 := by decide
theorem test_conv : conv [0x4000, 0x4000] [0x4000, 0x4000] = [0x2000, 0x4000, 0x2000] ∧
    conv [0x8000, 0x8000] [0x7FFF, 0x7FFF] = [0x8001, 0x8000, 0x8001] := by decide
theorem test_power : power [0x2000, 0x4000, 0x2000] = 0x18000000 := by decide
theorem test_slice16 : slice16 .tv 0x18000000 = 6144 ∧ (slice16 .tv 0x80000000).toInt = -32768 := by decide
theorem test_shiftRight : shiftRight [0x2000, 0xFFFF] 4 = [0x0200, 0xFFFF] := by decide
theorem test_min_max : minv [0x0200, 0xFFFF, 0x0400] = -1 ∧ maxv [0x0200, 0xFFFF, 0x0400] = 1024 := by decide
theorem test_decideBit : decideBit [512, 1024, 512] = true ∧ decideBit [512, 0, -512] = false := by decide
theorem test_accept : acceptPower .tv 0x1000000 = false ∧ acceptPower { Cfg.tv with threshold := 0x8000 } 0 = true := by decide

/-! ## Commands (vectors M1 to M12, W1 to W24, S1 to S4, programs P1 to P3) -/

/-- M3. -/
theorem test_modAddBit : (after [.modAddBit true] .reset).mod.buffI = 5 ∧
    Buffer.read (after [.modAddBit true] .reset).mod.map 9 = some 0x4000 := by decide
/-- M4: the third bit is discarded. -/
theorem test_modAddBit_full : (after [.modAddBit true] full).mod = full.mod ∧
    (after [.modAddBit true] full).fault = .bufferFull := by decide
/-- M5. -/
theorem test_modAddByte : (after [.modAddByte 0xA5] .reset).mod.map.drop 8 =
      [some 0x4000, some 0x4000, some 0xC000, some 0xC000] ∧
    (after [.modAddByte 0xA5] .reset).fault = .bufferFull := by decide
/-- L1.8: under TV8 the bits go out least-significant first. -/
theorem test_modAddByte_order : (after [.modAddByte 0xA5] (fresh .tv8)).fault = .noFault ∧
    (after [.modAddByte 0xA5] (fresh .tv8)).mod.map.drop 20 = [some 0xC000, some 0xC000, some 0x4000, some 0x4000] := by decide
/-- M1, M6. -/
theorem test_modIsRfd : responsesOf (after [.modIsRfd] .reset) = [1] ∧
    (responsesOf (after [.modIsRfd] streaming)).getLast? = some 0 := by decide
theorem test_modIsDv : responsesOf (after [.modIsDv] .reset) = [0] ∧
    (responsesOf (after [.modIsDv] streaming)).getLast? = some 1 := by decide
/-- M6. -/
theorem test_modGetSample : responsesOf streaming = [0, 0, 0x2000] ∧ streaming.mod.filt =
    [some 0x2000, some 0x4000, some 0x0000, some 0xC000, some 0x0000, some 0x4000, some 0x4000, some 0x4000, some 0x4000,
      some 0x4000, some 0x0000, some 0xC000, some 0xE000] := by decide
/-- M11: a frame of one sample. -/
theorem test_modGetSample_single :
    (after [.modAddBit true, .modGetSample]
      (fresh { Cfg.tv with nBits := 1, nSpb := 1, nPre := 0, pf := [0x7FFF] })).mod =
      { buffI := 0, outI := 0, map := [some 0x4000], filt := [none] } := by decide
/-- W1. -/
theorem test_demFeedSample : holding.dem.detPower = 0x1800 ∧ holding.dem.dbit = some true ∧ holding.dem.dv = true ∧
    holding.dem.z = [some 512, some 1024, some 512] ∧ holding.dem.winI = 0 := by decide
/-- W10: a slice equal to THRESHOLD is rejected. -/
theorem test_demFeedSample_threshold :
    (after [.demFeedSample 0x0D17, .demFeedSample 0x0D17] .reset).dem.dv = false ∧
    (after [.demFeedSample 0x0D17, .demFeedSample 0x0D17] .reset).dem.detPower = 256 := by decide
/-- W22, W23. -/
theorem test_demIsDa : responsesOf (after [.demIsDa] .reset) = [0] ∧
    (responsesOf (after [.demIsDa] holding)).getLast? = some 1 := by decide
/-- P2 steps 5 and 6. -/
theorem test_demGetBit : responsesOf (after [.demGetBit, .demGetBit] holding) = [0, 0, 1, 0] ∧
    (after [.demGetBit, .demGetBit] holding).fault = .demodDataNotReady := by decide
/-- S2, S3. -/
theorem test_rdFault : responsesOf (after [.modGetSample, .rdFault, .rdFault] .reset) = [0, 2, 2] ∧
    responsesOf (after [.modGetSample, .demGetBit, .rdFault] .reset) = [0, 0, 4] := by decide
/-- S1, S5. -/
theorem test_rdDetpwr : responsesOf (after [.rdDetpwr] .reset) = [0] ∧
    responsesOf (after [.rdDetpwr] holding) = [0, 0, 0x1800] := by decide
/-- M13, M14. -/
theorem test_preamble : (List.range 4).map (preambleBit .tv) = [true, false, true, true] ∧
    (List.range 5).map (preambleBit { Cfg.tv with nPre := 5, nBits := 9 }) = [true, false, true, false, false] := by decide
/-- M10. -/
theorem test_impulse : (after [.modAddBit true, .modAddBit false] (fresh { Cfg.tv with mapMode := .impulse })).mod.map =
    [some 0x4000, some 0, some 0xC000, some 0, some 0x4000, some 0, some 0x4000, some 0, some 0x4000, some 0, some 0xC000,
      some 0] := by decide

/-! ## Sequencer and clock (vectors T1, T2, T5) -/

theorem test_tick_start : (nextState (step (atStep .startTimer))).map (·.seq) = some { step := .input, cyc := some 0 } := by decide
theorem test_tick_input : (nextState (step (atStep .input))).map (fun t => (t.dem.winI, t.seq.step, t.env.trace)) =
    some (1, .drain, [.input 0x4000]) := by decide
theorem test_tick_drain : (nextState (step (scheduled holding .drain))).map (fun t => (t.dem.dv, t.env.trace)) =
    some (false, [.bit true]) := by decide
/-- T2, step 4. -/
theorem test_tick_enqueue : (nextState (step (scheduled .reset .enqueue))).map (fun t => (t.mod.buffI, t.fault, t.seq.step)) =
    some (6, .bufferFull, .output) := by decide
/-- T2, step 5; T1, step 5. -/
theorem test_tick_output : (nextState (step (scheduled full .output))).map (fun t => (t.mod.outI, t.env.trace)) =
    some (1, [.output 0x2000]) := by decide
theorem test_tick_output_idle : (nextState (step (atStep .output))).map (fun t => (t.mod.outI, t.env.trace)) =
    some (0, [.output 0]) := by decide
/-- T5, and the wait before the deadline. -/
theorem test_tick_deadline :
    (nextState (step { atStep .deadline with seq := { step := .deadline, cyc := some 1200 } })).map (·.seq.step) =
      some .startTimer ∧
    (nextState (step (atStep .deadline))).map (·.seq.step) = some .deadline := by decide
/-- R268: the timer wraps. -/
theorem test_clock_wraps : (nextState (step { atStep .drain with
      seq := { step := .drain, cyc := some 0xFFFFFFFF }, env := { Env.initial with agenda := [.clk] } })).map (·.seq) =
    some { step := .drain, cyc := some 0 } := by decide
/-- R319(3): an element without a value is a model fault. -/
theorem test_fault_no_value :
    faultOf (exec .demGetBit { State.reset with dem := { (State.reset).dem with dv := true } }) = some .dbitNoValue ∧
    faultOf (step { atStep .deadline with seq := { step := .deadline, cyc := none } }) = some .cycNoValue := by decide

/-! ## Witnesses: a concrete state that meets each statement's hypotheses -/

/-- The invariant at a state whose lists are short enough to look through. -/
theorem inv_full : full.Inv :=
  ⟨by decide, ⟨by decide, by decide, by decide, by decide, by decide, by decide, by decide, by decide, by decide⟩,
    ⟨by decide, by decide, by decide, by decide, by decide, by decide, by decide⟩, by decide⟩
theorem inv_streaming : streaming.Inv :=
  ⟨by decide, ⟨by decide, by decide, by decide, by decide, by decide, by decide, by decide, by decide, by decide⟩,
    ⟨by decide, by decide, by decide, by decide, by decide, by decide, by decide⟩, by decide⟩
theorem inv_holding : holding.Inv :=
  ⟨by decide, ⟨by decide, by decide, by decide, by decide, by decide, by decide, by decide, by decide, by decide⟩,
    ⟨by decide, by decide, by decide, by decide, by decide, by decide, by decide⟩, by decide⟩
theorem inv_halfWindow : halfWindow.Inv :=
  ⟨by decide, ⟨by decide, by decide, by decide, by decide, by decide, by decide, by decide, by decide, by decide⟩,
    ⟨by decide, by decide, by decide, by decide, by decide, by decide, by decide⟩, by decide⟩
theorem inv_quietHalf : quietHalf.Inv :=
  ⟨by decide, ⟨by decide, by decide, by decide, by decide, by decide, by decide, by decide, by decide, by decide⟩,
    ⟨by decide, by decide, by decide, by decide, by decide, by decide, by decide⟩, by decide⟩
theorem inv_reset : State.reset.Inv :=
  ⟨by decide, ⟨by decide, by decide, by decide, by decide, by decide, by decide, by decide, by decide, by decide⟩,
    ⟨by decide, by decide, by decide, by decide, by decide, by decide, by decide⟩, by decide⟩

theorem witness_DecodeOfEncodeIsTheCommand : (Instr.demFeedSample 0x8000).wellFormed = true := by decide
theorem witness_EncodeOfDecodeIsTheWord : decode 0x1100FFFF = .ok (.demFeedSample 0xFFFF) := rfl
theorem illegal_word_has_no_command : ¬ ∃ i, decode 0x01000002 = .ok i := by
  rintro ⟨i, h⟩
  have k : decode 0x01000002 = .error (.dataNotZero 0x01) := rfl
  rw [k] at h
  cases h
theorem witness_WordIsCommandIffOneRowMatches :
    (¬ ∃ i, decode 0x01000002 = .ok i) ∧ State.reset.cfg.Accepted ∧ State.reset.mode = .command ∧
    (State.reset.withFetchWord 32 0x01000002).env.agenda = [.command 0x01000002] ∧
    decode 0x01000001 = .ok (.modAddBit true) :=
  ⟨illegal_word_has_no_command, by decide, by decide, by decide, rfl⟩
/-- One boundary value for each clause. -/
theorem witness_OperandOutOfRangeIsAssemblyError :
    parseNumeral "256".toList = some (.decimal 256) ∧ parseNumeral "-1".toList = some (.decimal (-1)) ∧
    parseNumeral "0x100".toList = some (.hex 0x100) ∧ parseNumeral "-32769".toList = some (.decimal (-32769)) ∧
    parseNumeral "32768".toList = some (.decimal 32768) ∧ parseNumeral "0x10000".toList = some (.hex 0x10000) ∧
    parseNumeral "2".toList = some (.decimal 2) ∧ "2".toList ≠ ['0'] ∧ "2".toList ≠ ['1'] := by decide
theorem witness_StepRunsTheDecodedCommand :
    (State.reset.withFetchWord 32 0x03000000).cfg.Accepted ∧ (State.reset.withFetchWord 32 0x03000000).mode = .command ∧
    (State.reset.withFetchWord 32 0x03000000).env.agenda = [.command 0x03000000] ∧ decode 0x03000000 = .ok .modIsRfd :=
  ⟨by decide, by decide, by decide, rfl⟩
theorem witness_CommandInScheduledModeIsRefused : ∃ s : State, s.cfg.Accepted ∧ s.mode = .scheduled ∧
    s.env.agenda = [.command 0x03000000] :=
  ⟨{ State.resetOf .tv .scheduled with env := { Env.initial with agenda := [.command 0x03000000] } }, by decide⟩
theorem witness_CommandGivesOneResponseAndLeavesTheSequencer :
    exec .rdFault .reset = .next { State.reset with env := { Env.initial with trace := [.response 0] } } := rfl
theorem witness_ResetLeavesTheResetValues : Cfg.tv.WellFormed ∧ 0 < Cfg.tv.nPre ∧ 1 < Cfg.tv.nSpb ∧
    ({ Cfg.tv with nPre := 0 } : Cfg).WellFormed := by decide
theorem witness_ResetMayBeAssertedAgain : ∃ s : State, s.cfg.Accepted ∧ s.env.agenda = [.reset] :=
  ⟨{ full with env := { Env.initial with agenda := [.reset] } }, by decide⟩
theorem witness_PreambleAlternatesUntilTheDelimiter : 2 ≤ Cfg.tv.nPre ∧ 1 + 2 < Cfg.tv.nPre := by decide
theorem witness_Sat16ClampsAndAsrRoundsDown : (-32768 : Int) ≤ -32768 ∧ (-32768 : Int) ≤ 32767 := by decide
theorem witness_ConvIsTheSaturatedShiftedSum : 1 ≤ [(0x7FFF : Sample)].length ∧ 1 ≤ [(0x7FFF : Sample), 1].length ∧
    1 < [(0x7FFF : Sample)].length + [(0x7FFF : Sample), 1].length - 1 := by decide
theorem witness_AccumulatorsFitIn64Bits : [(0x8000 : Sample)].length < 2 ^ 33 ∧ Cfg.tv.pf.length < 2 ^ 33 := by
  norm_num [Cfg.tv]
theorem witness_SliceIsTheSignedQuotient : (0 : Int) ≤ 2 ^ (Cfg.tv.pwrLo + 15) - 1 ∧
    (2 ^ (Cfg.tv.pwrLo + 15) - 1 : Int) < 2 ^ (Cfg.tv.pwrLo + 15) := by decide
theorem witness_NormalisationShiftDividesBySixteen : [(0x8000 : Sample)][0]? = some 0x8000 := rfl
theorem witness_MinvAndMaxvAreTheExtremes : [(0x8000 : Sample)] ≠ [] := by decide
theorem witness_SlicerComparesThePeaksStrictly : [(4 : Sample), 4] ≠ [] ∧
    (∀ v ∈ [(4 : Sample), 4], ∀ u ∈ [(4 : Sample), 4], v = u) ∧ (∀ v ∈ [(0 : Sample), 0xFFFF], v.toInt ≤ 0) :=
  ⟨by simp, by simp, by simp⟩
theorem witness_DetectorExceedsTheThresholdStrictly :
    ({ Cfg.tv with threshold := 32767 } : Cfg).threshold = 32767 ∧
    ({ Cfg.tv with threshold := 0x8000 } : Cfg).threshold.toInt = -32768 := by decide
theorem witness_AddBitWritesTheNextSlotOrFaults :
    full.mod.map.length = full.cfg.nBits * full.cfg.nSpb ∧ full.mod.buffI = full.cfg.nBits ∧
    State.reset.mod.map.length = State.reset.cfg.nBits * State.reset.cfg.nSpb ∧
    State.reset.mod.buffI < State.reset.cfg.nBits ∧ 1 < State.reset.cfg.nSpb := by decide
/-- The last enqueued bit of a byte that does not fit, and of one that does. -/
theorem witness_AddByteEnqueuesWhatFits :
    State.reset.mod.map.length = State.reset.cfg.nBits * State.reset.cfg.nSpb ∧
    State.reset.mod.buffI ≤ State.reset.cfg.nBits ∧ State.reset.mod.buffI + 1 < State.reset.cfg.nBits ∧
    (fresh .tv8).mod.map.length = (fresh .tv8).cfg.nBits * (fresh .tv8).cfg.nSpb ∧
    (fresh .tv8).mod.buffI + 7 < (fresh .tv8).cfg.nBits := by decide
theorem witness_GetSampleStreamsTheFilteredFrameOrFaults :
    State.reset.mod.buffI ≠ State.reset.cfg.nBits ∧ full.mod.Inv full.cfg ∧ full.mod.buffI = full.cfg.nBits ∧
    full.mod.outI + 1 ≠ full.cfg.lFilt ∧
    (after (List.replicate 12 .modGetSample) full).mod.outI + 1 = full.cfg.lFilt :=
  ⟨by decide, inv_full.modInv, by decide, by decide, by decide⟩
theorem witness_FrameStreamsWholeAndReadyAgain :
    full.mod.Inv full.cfg ∧ full.mod.buffI = full.cfg.nBits ∧ full.mod.outI = 0 :=
  ⟨inv_full.modInv, by decide, by decide⟩
theorem witness_BitsOfferedDuringAStreamAreDiscarded : streaming.mod.Inv streaming.cfg ∧ streaming.mod.outI ≠ 0 :=
  ⟨inv_streaming.modInv, by decide⟩
theorem witness_FeedSampleIsDroppedWhileABitWaits : holding.dem.dv = true := by decide
theorem witness_FeedSampleStoresIntoTheWindow : State.reset.dem.dv = false ∧
    State.reset.dem.win.length = State.reset.cfg.nSpb ∧ State.reset.dem.winI + 1 < State.reset.cfg.nSpb := by decide
/-- A window that is accepted and one that is not. -/
theorem witness_FullWindowIsAnalysed : halfWindow.dem.Inv halfWindow.cfg ∧ halfWindow.dem.dv = false ∧
    halfWindow.dem.winI + 1 = halfWindow.cfg.nSpb ∧
    halfWindow.cfg.threshold.toInt < (after [.demFeedSample 0x4000] halfWindow).dem.detPower.toInt :=
  ⟨inv_halfWindow.demInv, by decide, by decide, by decide⟩
theorem witness_FullWindowIsAnalysed_rejected : quietHalf.dem.Inv quietHalf.cfg ∧ quietHalf.dem.dv = false ∧
    quietHalf.dem.winI + 1 = quietHalf.cfg.nSpb ∧
    ¬ quietHalf.cfg.threshold.toInt < (after [.demFeedSample 0] quietHalf).dem.detPower.toInt :=
  ⟨inv_quietHalf.demInv, by decide, by decide, by decide⟩
theorem witness_GetBitReturnsAndClearsOrFaults : holding.dem.dv = true ∧ holding.dem.dbit = some true ∧
    State.reset.dem.dv = false := by decide
theorem witness_OneBitPerDetection : holding.dem.Inv holding.cfg ∧ holding.dem.dv = true := ⟨inv_holding.demInv, by decide⟩
theorem witness_WindowYieldsABitIffItsPowerExceeds : State.reset.dem.Inv State.reset.cfg ∧ State.reset.dem.dv = false ∧
    State.reset.dem.winI = 0 ∧ [(0x4000 : Sample), 0x4000].length = State.reset.cfg.nSpb :=
  ⟨inv_reset.demInv, by decide, by decide, by decide⟩
theorem witness_TickStartsTheTimer : (atStep .startTimer).cfg.Accepted ∧ (atStep .startTimer).mode = .scheduled ∧
    (atStep .startTimer).seq.step = .startTimer ∧ (atStep .startTimer).env.agenda = [.seq] := by decide
theorem witness_TickFeedsTheDrawnSample : ∃ u, (atStep .input).cfg.Accepted ∧ (atStep .input).mode = .scheduled ∧
    (atStep .input).seq.step = .input ∧ (atStep .input).env.agenda = [.seq] ∧ (atStep .input).env.samples = [0x4000] ∧
    exec (.demFeedSample 0x4000) (atStep .input) = .next u := ⟨_, by decide, by decide, by decide, by decide, by decide, rfl⟩
theorem witness_TickDrainsAtMostOneBit : (scheduled holding .drain).cfg.Accepted ∧
    (scheduled holding .drain).mode = .scheduled ∧ (scheduled holding .drain).seq.step = .drain ∧
    (scheduled holding .drain).env.agenda = [.seq] ∧ (scheduled holding .drain).dem.dv = true ∧
    (scheduled holding .drain).dem.dbit = some true ∧ (atStep .drain).dem.dv = false := by decide
theorem witness_TickEnqueuesOnlyWhenReady : ∃ u, (scheduled .reset .enqueue).cfg.Accepted ∧
    (scheduled .reset .enqueue).mode = .scheduled ∧ (scheduled .reset .enqueue).seq.step = .enqueue ∧
    (scheduled .reset .enqueue).env.agenda = [.seq] ∧ (scheduled .reset .enqueue).mod.outI = 0 ∧
    (scheduled .reset .enqueue).env.inbound = [some 0xA5] ∧ (scheduled streaming .enqueue).mod.outI ≠ 0 ∧
    exec (.modAddByte 0xA5) (scheduled .reset .enqueue) = .next u :=
  ⟨_, by decide, by decide, by decide, by decide, by decide, by decide, by decide, rfl⟩
theorem witness_TickEnqueuesOnlyWhenReady_none : ({ (scheduled .reset .enqueue) with
    env := { Env.initial with agenda := [.seq], inbound := [none] } } : State).env.inbound = none :: [] := by decide
theorem witness_TickWritesOneOutputSample : ∃ u, (scheduled full .output).cfg.Accepted ∧
    (scheduled full .output).mode = .scheduled ∧ (scheduled full .output).seq.step = .output ∧
    (scheduled full .output).env.agenda = [.seq] ∧ (scheduled full .output).mod.buffI = (scheduled full .output).cfg.nBits ∧
    exec .modGetSample (scheduled full .output) = .next u ∧ u.env.trace = [.response 0x2000] ∧
    (atStep .output).mod.buffI ≠ (atStep .output).cfg.nBits :=
  ⟨(nextState (exec .modGetSample (scheduled full .output))).getD .reset, by decide, by decide, by decide, by decide, by decide,
    rfl, by decide, by decide⟩
/-- CYC one short of TICK_CYCLES, and at it. -/
theorem witness_TickWaitsForTheDeadline : (atStep .deadline).cfg.Accepted ∧ (atStep .deadline).mode = .scheduled ∧
    (atStep .deadline).seq.step = .deadline ∧ (atStep .deadline).seq.cyc = some 5 ∧ (atStep .deadline).env.agenda = [.seq] ∧
    (999 : BitVec 32).toNat < (atStep .deadline).cfg.tickCycles ∧
    (atStep .deadline).cfg.tickCycles ≤ (1000 : BitVec 32).toNat := by decide
theorem witness_SequencerAdvancesOneStepAtATime : ∃ s : State, s.Inv ∧ s.mode = .scheduled ∧ s.env.agenda = [.seq] ∧
    s.seq.step.number < 6 :=
  ⟨scheduled .reset .output, ⟨inv_reset.accepted, inv_reset.modInv, inv_reset.demInv, by decide⟩, by decide, by decide, by decide⟩
theorem witness_SequencerAdvancesOneStepAtATime_last : (scheduled .reset .deadline).seq.step.number = 6 ∧
    (scheduled .reset .deadline).Inv :=
  ⟨by decide, inv_reset.accepted, inv_reset.modInv, inv_reset.demInv, by decide⟩
theorem witness_ClockCountsModulo : ∃ s : State, s.cfg.Accepted ∧ s.mode = .scheduled ∧ s.seq.cyc = some 0xFFFFFFFF ∧
    s.env.agenda = [.clk] :=
  ⟨{ State.resetOf .tv .scheduled with
      seq := { step := .drain, cyc := some 0xFFFFFFFF }, env := { Env.initial with agenda := [.clk] } }, by decide⟩
/-- Two counts missing, and none. -/
theorem witness_DeadlineIsReachedAfterTheMissingCounts : ∃ s : State, s.cfg.Accepted ∧ s.mode = .scheduled ∧
    s.seq.step = .deadline ∧ s.seq.cyc = some 998 ∧ (998 : BitVec 32).toNat ≤ s.cfg.tickCycles ∧
    s.env.agenda = List.replicate (s.cfg.tickCycles - (998 : BitVec 32).toNat) .clk ++ .seq :: [] ∧
    (1000 : BitVec 32).toNat ≤ s.cfg.tickCycles :=
  ⟨{ State.resetOf .tv .scheduled with
      seq := { step := .deadline, cyc := some 998 }, env := { Env.initial with agenda := [.clk, .clk, .seq] } }, by decide⟩
theorem witness_TickReadsOnceThenWritesOnce : ∃ s : State, s.Inv ∧ s.mode = .scheduled ∧ s.seq.step = .startTimer ∧
    s.env.agenda = .seq :: .seq :: .seq :: .seq :: .seq :: [] :=
  ⟨{ State.resetOf .tv .scheduled with env := { Env.initial with agenda := [.seq, .seq, .seq, .seq, .seq] } },
    ⟨inv_reset.accepted, inv_reset.modInv, inv_reset.demInv, by decide⟩, by decide, by decide, by decide⟩
theorem witness_ReadsAndWritesStayInBalance : ∃ t : State, (atStep .input).mode = .scheduled ∧
    (atStep .input).env.agenda.head? ≠ some .reset ∧ (atStep .input).ReadsMatchWrites ∧ step (atStep .input) = .next t :=
  ⟨_, by decide, by decide, rfl, rfl⟩
theorem witness_TimeDoesNotAffectTheData : ∃ t : State, (atStep .output).mode = .scheduled ∧
    (atStep .output).seq.step ≠ .deadline ∧ (atStep .output).env.agenda = [.seq] ∧ step (atStep .output) = .next t :=
  ⟨_, by decide, by decide, by decide, rfl⟩
theorem witness_FaultAndPowerAreOnlyObserved : ∃ t u : State, Instr.demGetBit ≠ .rdFault ∧ Instr.demGetBit ≠ .rdDetpwr ∧
    exec .demGetBit .reset = .next t ∧ (atStep .output).mode = .scheduled ∧ step (atStep .output) = .next u :=
  ⟨_, _, by decide, by decide, rfl, by decide, rfl⟩
theorem witness_FaultIsClearedOnlyByReset : ∃ s t : State, s.env.agenda.head? ≠ some .reset ∧ faultWord s ≠ 0 ∧
    step s = .next t :=
  ⟨{ State.reset with fault := .bufferFull }, _, by decide, by decide, rfl⟩
theorem witness_CommandRaisesOnlyItsOwnFault : ∃ t : State, exec .modGetSample .reset = .next t ∧ t.fault ≠ State.reset.fault :=
  ⟨_, rfl, by decide⟩
theorem witness_ConfigurationAndModeNeverChange : ∃ t : State, step (atStep .output) = .next t := ⟨_, rfl⟩
theorem witness_ResetStateMeetsTheInvariant : Cfg.tv8.Accepted := by decide
theorem witness_EveryStepKeepsTheInvariant : ∃ t : State, (streaming.withFetchWord 32 0x05000000).Inv ∧
    step (streaming.withFetchWord 32 0x05000000) = .next t :=
  ⟨_, ⟨inv_streaming.accepted, inv_streaming.modInv, inv_streaming.demInv, inv_streaming.cycWritten⟩, rfl⟩
theorem witness_NoElementWithoutValueIsRead : holding.Inv := inv_holding
theorem witness_CommandProgramRunsToItsEnd : ∃ s : State, s.Inv ∧ s.mode = .command ∧
    s.env.agenda = [Instr.modAddByte 0xA5, .modGetSample].map (fun i => Move.command (encode i)) ++ [] :=
  ⟨{ State.reset with env := { Env.initial with agenda := [.command 0x020000A5, .command 0x05000000] } },
    ⟨inv_reset.accepted, inv_reset.modInv, inv_reset.demInv, by decide⟩, by decide, by decide⟩
theorem witness_ScheduledRunNeverStops : ∃ s : State, s.Inv ∧ s.mode = .scheduled ∧ ∀ w, .command w ∉ s.env.agenda :=
  ⟨scheduled .reset .output, ⟨inv_reset.accepted, inv_reset.modInv, inv_reset.demInv, by decide⟩, by decide, by
    intro w h; simp [scheduled] at h⟩
theorem witness_ResetStateMeetsTheScheduledInvariant : Cfg.tv.Accepted := by decide
theorem witness_EveryStepKeepsTheScheduledInvariant : ∃ s t : State, s.Inv ∧ s.ScheduledInv ∧ step s = .next t :=
  ⟨scheduled full .output, _, ⟨inv_full.accepted, inv_full.modInv, inv_full.demInv, by decide⟩,
    ⟨by decide, by decide, by decide, by decide⟩, rfl⟩
theorem witness_WholeBytePayloadNeverFaults : ∃ s t : State, s.Inv ∧ s.ScheduledInv ∧ s.WholeBytesInv ∧ step s = .next t :=
  ⟨{ State.resetOf .tv8 .scheduled with env := { Env.initial with agenda := [.seq] } }, _,
    ⟨by decide, ⟨by decide, by decide, by decide, by decide, by decide, by decide, by decide, by decide, by decide⟩,
      ⟨by decide, by decide, by decide, by decide, by decide, by decide, by decide⟩, by decide⟩,
    ⟨by decide, by decide, by decide, by decide⟩, ⟨by decide, by decide, by decide⟩, rfl⟩

end Sys2Proof.Tests
end

section
/-! PROOFS. Family 00_scope.md. The command format decodes to what it encodes (30_encoding.md R100 to R106), what a refusal of a
step means (00_scope.md R10; 60_exceptions.md R319(2)), and that every command completes and keeps the invariant. -/

namespace Sys2Proof

/-! ## The command format -/

/-- The DATA field of a word of format F32 (R100). -/
@[simp] theorem dataField_encodeF32 (op : Byte) (data : BitVec 16) : dataField (encodeF32 op data) = data := by
  unfold dataField encodeF32
  ext i hi
  simp [hi, show i < 24 by omega, ← BitVec.getLsbD_eq_getElem, show i < 32 by omega]

/-- The bit operand is read back (R102). -/
@[simp] theorem bitOperand_encodeF32 (op : Byte) (b : Bit) : bitOperand (encodeF32 op (bitData b)) = b := by
  rw [bitOperand, dataField_encodeF32]
  cases b <;> decide

/-- The byte operand is read back (R102). -/
@[simp] theorem byteOperand_encodeF32 (op v : Byte) : byteOperand (encodeF32 op (byteData v)) = v := by
  rw [byteOperand, dataField_encodeF32, byteData, BitVec.extractLsb'_setWidth_of_le (by decide),
    BitVec.extractLsb'_eq_self]

/-- The sample operand is read back (R102). -/
@[simp] theorem sampleOperand_encodeF32 (op : Byte) (v : Sample) : sampleOperand (encodeF32 op v) = v :=
  dataField_encodeF32 op v

/-- Every command's word belongs to the one row of its mnemonic (R105). -/
theorem encode_matches_one_row (i : Instr) : Laws.OneRow.Statement i := by
  cases i with
  | modAddBit b => exact Laws.OneRow.modAddBit b
  | modAddByte v => exact Laws.OneRow.modAddByte v
  | modIsRfd => exact Laws.OneRow.modIsRfd
  | modIsDv => exact Laws.OneRow.modIsDv
  | modGetSample => exact Laws.OneRow.modGetSample
  | demFeedSample v => exact Laws.OneRow.demFeedSample v
  | demIsDa => exact Laws.OneRow.demIsDa
  | demGetBit => exact Laws.OneRow.demGetBit
  | rdFault => exact Laws.OneRow.rdFault
  | rdDetpwr => exact Laws.OneRow.rdDetpwr

/-- The row of a command's mnemonic rebuilds the command from its word (R102). -/
theorem build_encode {r : OpcodeRow} {i : Instr} (hr : r ∈ opcodeTable) (hm : r.mnemonic = mnemonicOf i) :
    r.build (encode i) = i := by
  revert r
  cases i <;> simp [opcodeTable, mnemonicOf, encode, opNumber, dataOf]

/-- The decoder inverts the encoder (R106): the first row that matches is the only one, the command's own. -/
@[simp] theorem decode_encode (i : Instr) : decode (encode i) = .ok i := by
  obtain ⟨r, hrow, hm⟩ := List.map_eq_singleton_iff.mp (encode_matches_one_row i)
  have hr : r ∈ opcodeTable := (List.mem_filter.mp (hrow ▸ List.mem_singleton_self r)).1
  have hfind : opcodeTable.find? (fun r => r.matchesWord (encode i)) = some r := by
    rw [← List.head?_filter, hrow, List.head?_singleton]
  simp only [decode, hfind, build_encode hr hm]

namespace Machine

/-! ## Refusals -/

/-- No command is refused by `exec` (R319(2)). -/
theorem exec_ne_refused (i : Instr) (s : State) (q : Refusal) : exec i s ≠ .refused q := by
  rcases exec_cases i s with ⟨t, r, he, -⟩ | ⟨f, he, -⟩ <;> simp [he]

/-- No tick step of the sequencer is refused (R260). -/
theorem seqStep_ne_refused (s : State) (q : Refusal) : seqStep s ≠ .refused q := by
  unfold seqStep
  split
  · simp [seqStartTimer]
  · unfold seqInput; split <;> simp
  · unfold seqDrain; split
    · split <;> simp
    · simp
  · unfold seqEnqueue; split
    · split <;> simp
    · simp
  · unfold seqOutput; split
    · split <;> simp
    · simp
  · unfold seqDeadline; split
    · simp
    · split <;> simp

/-- A move is refused only where it offers a word: in SCHEDULED mode, or an illegal word (R105, R107). -/
theorem performMove_refused {m : Move} {s : State} {q : Refusal} (h : performMove m s = .refused q) :
    ∃ w, m = .command w ∧
      ((s.mode = .scheduled ∧ q = .commandInScheduledMode) ∨
       (s.mode = .command ∧ ∃ e, decode w = .error e ∧ q = .illegalWord w e)) := by
  cases m with
  | command w =>
    refine ⟨w, rfl, ?_⟩
    simp only [performMove, offerCommand] at h
    split at h
    · next hm => cases h; exact .inl ⟨hm, rfl⟩
    · next hm =>
      split at h
      · next e he => cases h; exact .inr ⟨hm, e, he, rfl⟩
      · exact absurd h (exec_ne_refused _ _ _)
  | reset => simp [performMove] at h
  | seq =>
    simp only [performMove] at h
    split at h
    · exact absurd h (seqStep_ne_refused _ _)
    · cases h
  | clk =>
    simp only [performMove] at h
    split at h <;> cases h

/-- A step of an accepted configuration is refused only by the word it offers, never by the configuration (R10, R319(2)). -/
theorem step_accepted_ne_illFormed {s : State} (ha : s.cfg.Accepted) : step s ≠ .refused .illFormedConfiguration := by
  have hmove (m : Move) (t : State) : performMove m t ≠ .refused .illFormedConfiguration := by
    intro h
    obtain ⟨w, -, ⟨-, hq⟩ | ⟨-, e, -, hq⟩⟩ := performMove_refused h <;> cases hq
  rcases step_runs ha with ⟨m, rest, -, hs⟩ | ⟨-, -, hs⟩ | ⟨-, -, hs | hs⟩
  · rw [hs]; exact hmove _ _
  · rw [hs]; simp
  · rw [hs]; exact hmove _ _
  · rw [hs]; exact hmove _ _

/-- A step is refused as ill formed exactly where R10's conjunction fails. -/
theorem step_illFormed_iff (s : State) : step s = .refused .illFormedConfiguration ↔ ¬ s.cfg.WellFormed := by
  constructor
  · intro h hw
    by_cases hb : s.cfg.BuffersInSpec
    · exact step_accepted_ne_illFormed ⟨hw, hb⟩ h
    · simp only [step, guardedStep, if_pos hw, if_neg hb] at h
      cases h
  · intro hw
    simp only [step, guardedStep, if_neg hw]

/-- Settles O9: the guard of every step is R10's conjunction, and nothing behind the guard gives this refusal. -/
theorem illFormedConfigurationIsRefused : Obligations.IllFormedConfigurationIsRefused :=
  step_illFormed_iff

/-! ## Every command completes and keeps the invariant -/

/-- The invariant carries over to a state with the same parameters and sequencer whose two paths meet theirs. -/
theorem State.Inv.of_paths {s t : State} (h : s.Inv) (hc : t.cfg = s.cfg) (hq : t.seq = s.seq)
    (hm : t.mod.Inv s.cfg) (hd : t.dem.Inv s.cfg) : t.Inv :=
  ⟨hc ▸ h.accepted, hc ▸ hm, hc ▸ hd, hq ▸ h.cycWritten⟩

/-- The environment is no part of the invariant. -/
theorem State.Inv.setEnv {s : State} (h : s.Inv) (e : Env) : (s.setEnv e).Inv :=
  h.of_paths rfl rfl h.modInv h.demInv

/-- An accepted configuration's preamble fits its symbol buffer (R10). -/
theorem nPre_le_nBits {c : Cfg} (h : c.Accepted) : c.nPre ≤ c.nBits := by
  obtain ⟨⟨-, -, -, -, hpre, -⟩, -⟩ := h
  omega

/-- From an invariant state every command completes, and the state it leaves meets the invariant (R57, R87). -/
theorem exec_keeps_inv (i : Instr) {s : State} (h : s.Inv) : ∃ t, exec i s = .next t ∧ t.Inv := by
  have hm := h.modInv
  have hd := h.demInv
  cases i with
  | modAddBit b =>
    exact ⟨_, exec_modAddBit b s,
      (h.of_paths (by simp) (by simp) (addBit_keeps_inv b hm) (by simpa using hd)).setEnv _⟩
  | modAddByte v =>
    exact ⟨_, exec_modAddByte v s,
      (h.of_paths (by simp) (by simp) (addByte_keeps_inv v hm) (by simpa using hd)).setEnv _⟩
  | modGetSample =>
    obtain ⟨t, v, hg, ht⟩ := getSample_keeps_inv hm (nPre_le_nBits h.accepted)
    obtain ⟨hc, -, hdem, hq, -⟩ := getSample_frame hg
    exact ⟨_, exec_modGetSample_ok hg, (h.of_paths hc hq ht (hdem ▸ hd)).setEnv _⟩
  | demFeedSample v =>
    obtain ⟨t, hf, ht⟩ := feedSample_keeps_inv v hd
    obtain ⟨hc, -, hmod, hq, -⟩ := feedSample_frame hf
    exact ⟨_, exec_demFeedSample_ok hf, (h.of_paths hc hq (hmod ▸ hm) ht).setEnv _⟩
  | demGetBit =>
    obtain ⟨t, b, hg, ht⟩ := getBit_keeps_inv hd
    obtain ⟨hc, -, hmod, hq, -⟩ := getBit_frame hg
    exact ⟨_, exec_demGetBit_ok hg, (h.of_paths hc hq (hmod ▸ hm) ht).setEnv _⟩
  | modIsRfd => exact ⟨_, exec_modIsRfd s, h.setEnv _⟩
  | modIsDv => exact ⟨_, exec_modIsDv s, h.setEnv _⟩
  | demIsDa => exact ⟨_, exec_demIsDa s, h.setEnv _⟩
  | rdFault => exact ⟨_, exec_rdFault s, h.setEnv _⟩
  | rdDetpwr => exact ⟨_, exec_rdDetpwr s, h.setEnv _⟩

/-! ## A program of commands -/

/-- A step that offers a legal word in COMMAND mode runs the decoded command, on the state with the word taken (R106). -/
theorem step_of_command {s : State} {w : Word} {rest : List Move} {i : Instr} (ha : s.cfg.Accepted)
    (hm : s.mode = .command) (hw : s.env.agenda = .command w :: rest) (hi : decode w = .ok i) :
    step s = exec i (s.setAgenda rest) := by
  simp only [step_of_agenda ha hw, performMove, offerCommand, State.setAgenda_mode, hm, hi]

/-- One step of a program: the command completes, takes its word off the agenda, gives one response and keeps the invariant
(R87, R104). -/
theorem step_of_encode {s : State} {i : Instr} {rest : List Move} (h : s.Inv) (hm : s.mode = .command)
    (ha : s.env.agenda = .command (encode i) :: rest) :
    ∃ t r, step s = .next t ∧ t.Inv ∧ t.mode = .command ∧
      t.env = { s.env with agenda := rest, trace := s.env.trace ++ [.response r] } := by
  obtain ⟨t, ht, hinv⟩ := exec_keeps_inv i (s := s.setAgenda rest) (h.setEnv _)
  obtain ⟨-, hmode, -, r, henv⟩ := exec_next_frame ht
  exact ⟨t, r, (step_of_command h.accepted hm ha (decode_encode i)).trans ht, hinv, hmode.trans hm, henv⟩

/-- Settles O56, by induction on the program: each word's step leaves a state that meets the hypotheses for the rest. -/
theorem commandProgramRunsToItsEnd : Obligations.CommandProgramRunsToItsEnd := by
  unfold Obligations.CommandProgramRunsToItsEnd
  intro s p rest h hm ha
  induction p generalizing s with
  | nil =>
    have hrest : s.env.agenda = rest := ha
    exact ⟨s, [], rfl, h, rfl, hm, by simp [← hrest]⟩
  | cons i p ih =>
    obtain ⟨t, r, hstep, hinv, hmode, henv⟩ := step_of_encode h hm ha
    obtain ⟨u, rs, hrun, huinv, hlen, humode, huenv⟩ := ih t hinv hmode (congrArg Env.agenda henv)
    refine ⟨u, r :: rs, ?_, huinv, by simp [hlen], humode, ?_⟩
    · rw [List.length_cons, core_run_next _ hstep, hrun]
    · simp [huenv, henv]

end Machine
end Sys2Proof
end

section
/-! PROOFS. Family 10_state.md. Every step, of a command, of the sequencer, of the clock and of reset, completes from an
invariant state and keeps the invariant (10_state.md R36, R38, R40, R44, R47, R57); no step writes CFG or MODE (R50); only
reset clears FAULT (R46). -/

namespace Sys2Proof.Machine

/-! ## The state after reset -/

/-- FILT has an element: an accepted configuration's frame and pulse kernel are not empty (R9, R10). -/
theorem lFilt_pos {c : Cfg} (h : c.Accepted) : 0 < c.lFilt := by
  obtain ⟨⟨hspb, hbits, hpf, -⟩, -⟩ := h
  have hmap : 0 < c.lMap := Nat.mul_pos hbits hspb
  simp only [Cfg.lFilt]
  omega

/-- The preamble's elements all hold values (R342). -/
theorem preambleMap_filled {c : Cfg} (h : c.nPre ≤ c.nBits) {i : Nat} (hi : i < c.nPre * c.nSpb) :
    (Buffer.read (preambleMap c) i).isSome := by
  obtain ⟨j, k, hj, hk, rfl⟩ := slot_of_index hi
  rw [preambleMap_read_slot c h hj hk]
  rfl

/-- The modulator after reset holds the preamble and streams nothing (R38, R342). -/
theorem ModState.resetOf_inv {c : Cfg} (h : c.Accepted) : (ModState.resetOf c).Inv c where
  mapLength := preambleMap_length c (nPre_le_nBits h)
  buffLow := le_refl _
  buffHigh := nPre_le_nBits h
  outRange := lFilt_pos h
  streaming := fun hout => absurd rfl hout
  mapFilled := fun _ hi => preambleMap_filled (nPre_le_nBits h) hi
  preambleKept := fun _ _ => rfl
  filtIdle := fun _ => rfl
  filtFrame := fun hout => absurd rfl hout

/-- The demodulator after reset has an empty window and no bit (R40, R44, R341). -/
theorem DemState.resetOf_inv {c : Cfg} (h : c.Accepted) : (DemState.resetOf c).Inv c where
  winLength := Buffer.length_noValue _
  winRange := h.1.1
  winFilled := fun i hi => absurd hi (Nat.not_lt_zero i)
  yLength := Buffer.length_noValue _
  zLength := Buffer.length_noValue _
  dbitHeld := fun hdv => nomatch hdv
  dstateHard := rfl

/-- The machine of an accepted configuration right after reset meets the invariant: STEP is 1, so CYC is not read (R57). -/
theorem State.resetOf_inv {c : Cfg} (m : Mode) (h : c.Accepted) : (State.resetOf c m).Inv where
  accepted := h
  modInv := ModState.resetOf_inv h
  demInv := DemState.resetOf_inv h
  cycWritten := fun hstep => absurd rfl hstep

/-- Settles O53. -/
theorem resetStateMeetsTheInvariant : Obligations.ResetStateMeetsTheInvariant :=
  fun _ m h => State.resetOf_inv m h

/-- The reset event leaves an invariant state (R340): the reset state of the same CFG and MODE, the environment apart. -/
theorem resetEvent_keeps_inv {s : State} (h : s.Inv) : s.resetEvent.Inv :=
  (State.resetOf_inv s.mode h.accepted).setEnv _

/-! ## The operations of the tick steps keep the invariant of the whole machine -/

/-- `draw IN()` keeps the invariant. -/
theorem drawInput_keeps_inv {s : State} (h : s.Inv) : s.drawInput.2.Inv :=
  h.of_paths (by simp) (by simp) (by simpa using h.modInv) (by simpa using h.demInv)

/-- `draw INBOUND()` keeps the invariant. -/
theorem drawInbound_keeps_inv {s : State} (h : s.Inv) : s.drawInbound.2.Inv :=
  h.of_paths (by simp) (by simp) (by simpa using h.modInv) (by simpa using h.demInv)

/-- Recording an event keeps the invariant. -/
theorem State.Inv.emit {s : State} (h : s.Inv) (e : Event) : (s.emit e).Inv :=
  h.setEnv _

/-- STEP may move on once CYC is written (R53, R57). -/
theorem State.Inv.goto {s : State} (h : s.Inv) (hstep : s.seq.step ≠ .startTimer) (n : TickStep) : (s.goto n).Inv :=
  ⟨h.accepted, h.modInv, h.demInv, fun _ => h.cycWritten hstep⟩

/-! ## The tick steps complete and keep the invariant -/

/-- Step 1 writes CYC, so every later step may read it (R261). -/
theorem seqStartTimer_keeps_inv {s : State} (h : s.Inv) : ∃ t, seqStartTimer s = .next t ∧ t.Inv :=
  ⟨_, rfl, h.accepted, h.modInv, h.demInv, fun _ => rfl⟩

/-- Step 2 (R262). -/
theorem seqInput_keeps_inv {s : State} (h : s.Inv) (hstep : s.seq.step ≠ .startTimer) :
    ∃ t, seqInput s = .next t ∧ t.Inv := by
  have hdraw := drawInput_keeps_inv h
  obtain ⟨t, hf, hdem⟩ := feedSample_keeps_inv s.drawInput.1 hdraw.demInv
  obtain ⟨hc, -, hmod, hq, -⟩ := feedSample_frame hf
  refine ⟨t.goto .drain, by simp [seqInput, hf], ?_⟩
  exact (hdraw.of_paths hc hq (hmod ▸ hdraw.modInv) hdem).goto (by simpa [hq] using hstep) _

/-- Step 3 (R263). -/
theorem seqDrain_keeps_inv {s : State} (h : s.Inv) (hstep : s.seq.step ≠ .startTimer) :
    ∃ t, seqDrain s = .next t ∧ t.Inv := by
  cases hda : demDa s with
  | true =>
    obtain ⟨t, b, hg, hdem⟩ := getBit_keeps_inv h.demInv
    obtain ⟨hc, -, hmod, hq, -⟩ := getBit_frame hg
    refine ⟨(t.emit (.bit b)).goto .enqueue, by simp [seqDrain, hda, hg], ?_⟩
    exact ((h.of_paths hc hq (hmod ▸ h.modInv) hdem).emit _).goto (by simpa [hq] using hstep) _
  | false => exact ⟨s.goto .enqueue, by simp [seqDrain, hda], h.goto hstep _⟩

/-- Step 4 (R264). -/
theorem seqEnqueue_keeps_inv {s : State} (h : s.Inv) (hstep : s.seq.step ≠ .startTimer) :
    ∃ t, seqEnqueue s = .next t ∧ t.Inv := by
  have hdraw := drawInbound_keeps_inv h
  cases hr : rfd s with
  | true =>
    cases ho : s.drawInbound.1 with
    | some v =>
      refine ⟨(addByte v s.drawInbound.2).goto .output, by simp [seqEnqueue, hr, ho], ?_⟩
      exact (hdraw.of_paths (addByte_cfg _ _) (addByte_seq _ _) (addByte_keeps_inv v hdraw.modInv)
        (by simpa using hdraw.demInv)).goto (by simpa using hstep) _
    | none => exact ⟨s.drawInbound.2.goto .output, by simp [seqEnqueue, hr, ho], hdraw.goto (by simpa using hstep) _⟩
  | false => exact ⟨s.goto .output, by simp [seqEnqueue, hr], h.goto hstep _⟩

/-- Step 5 (R265). -/
theorem seqOutput_keeps_inv {s : State} (h : s.Inv) (hstep : s.seq.step ≠ .startTimer) :
    ∃ t, seqOutput s = .next t ∧ t.Inv := by
  cases hdv : modDv s with
  | true =>
    obtain ⟨t, v, hg, hmod⟩ := getSample_keeps_inv h.modInv (nPre_le_nBits h.accepted)
    obtain ⟨hc, -, hdem, hq, -⟩ := getSample_frame hg
    refine ⟨(t.emit (.output v)).goto .deadline, by simp [seqOutput, hdv, hg], ?_⟩
    exact ((h.of_paths hc hq hmod (hdem ▸ h.demInv)).emit _).goto (by simpa [hq] using hstep) _
  | false =>
    exact ⟨(s.emit (.output Cfg.idleLevel)).goto .deadline, by simp [seqOutput, hdv], (h.emit _).goto hstep _⟩

/-- Step 6 finds CYC written (R57, R266). -/
theorem seqDeadline_keeps_inv {s : State} (h : s.Inv) (hstep : s.seq.step ≠ .startTimer) :
    ∃ t, seqDeadline s = .next t ∧ t.Inv := by
  obtain ⟨n, hn⟩ := Option.isSome_iff_exists.mp (h.cycWritten hstep)
  by_cases hb : s.cfg.tickCycles ≤ n.toNat
  · exact ⟨s.goto .startTimer, by simp [seqDeadline, hn, hb], h.goto hstep _⟩
  · exact ⟨s, by simp [seqDeadline, hn, hb], h⟩

/-- From an invariant state every step of the sequencer completes, and the state it leaves meets the invariant (R57, R260). -/
theorem seqStep_keeps_inv {s : State} (h : s.Inv) : ∃ t, seqStep s = .next t ∧ t.Inv := by
  cases hq : s.seq.step with
  | startTimer => simpa only [seqStep, hq] using seqStartTimer_keeps_inv h
  | input => simpa only [seqStep, hq] using seqInput_keeps_inv h (by simp [hq])
  | drain => simpa only [seqStep, hq] using seqDrain_keeps_inv h (by simp [hq])
  | enqueue => simpa only [seqStep, hq] using seqEnqueue_keeps_inv h (by simp [hq])
  | output => simpa only [seqStep, hq] using seqOutput_keeps_inv h (by simp [hq])
  | deadline => simpa only [seqStep, hq] using seqDeadline_keeps_inv h (by simp [hq])

/-- The clock keeps the invariant: counting leaves a written CYC written (R268). -/
theorem clkStep_keeps_inv {s : State} (h : s.Inv) : (clkStep s).Inv :=
  ⟨h.accepted, h.modInv, h.demInv, fun hstep => by simpa [clkStep] using h.cycWritten hstep⟩

/-! ## Every step keeps the invariant -/

/-- From an invariant state every move is refused or completes in an invariant state: no move is a model fault (R319). -/
theorem performMove_keeps_inv (m : Move) {s : State} (h : s.Inv) :
    (∃ q, performMove m s = .refused q) ∨ ∃ t, performMove m s = .next t ∧ t.Inv := by
  cases m with
  | command w =>
    cases hm : s.mode with
    | scheduled => exact .inl ⟨.commandInScheduledMode, by simp [performMove, offerCommand, hm]⟩
    | command =>
      cases hw : decode w with
      | error e => exact .inl ⟨.illegalWord w e, by simp [performMove, offerCommand, hm, hw]⟩
      | ok i => exact .inr (by simpa [performMove, offerCommand, hm, hw] using exec_keeps_inv i h)
  | reset => exact .inr ⟨_, rfl, resetEvent_keeps_inv h⟩
  | seq =>
    cases hm : s.mode with
    | scheduled => exact .inr (by simpa only [performMove, hm] using seqStep_keeps_inv h)
    | command => exact .inr ⟨s, by simp only [performMove, hm], h⟩
  | clk =>
    cases hm : s.mode with
    | scheduled => exact .inr ⟨clkStep s, by simp only [performMove, hm], clkStep_keeps_inv h⟩
    | command => exact .inr ⟨s, by simp only [performMove, hm], h⟩

/-- From an invariant state every step is refused or completes in an invariant state. -/
theorem step_keeps_inv {s : State} (h : s.Inv) : (∃ q, step s = .refused q) ∨ ∃ t, step s = .next t ∧ t.Inv := by
  rcases step_runs h.accepted with ⟨m, rest, -, hs⟩ | ⟨-, -, hs⟩ | ⟨-, -, hs | hs⟩
  · rw [hs]; exact performMove_keeps_inv m (h.setEnv _)
  · exact .inr ⟨s, hs, h⟩
  · rw [hs]; exact performMove_keeps_inv .seq (h.setEnv _)
  · rw [hs]; exact performMove_keeps_inv .clk (h.setEnv _)

/-- Settles O54: whichever agent moves, its operation keeps both paths' invariants and CYC written. -/
theorem everyStepKeepsTheInvariant : Obligations.EveryStepKeepsTheInvariant := by
  unfold Obligations.EveryStepKeepsTheInvariant
  intro s t h ht
  rcases step_keeps_inv h with ⟨q, hq⟩ | ⟨u, hu, hinv⟩
  · rw [hq] at ht; cases ht
  · rw [hu] at ht; cases ht; exact hinv

/-- Settles O55: a step from an invariant state is refused or completes, and every command completes. -/
theorem noElementWithoutValueIsRead : Obligations.NoElementWithoutValueIsRead := by
  unfold Obligations.NoElementWithoutValueIsRead
  intro s h
  constructor
  · rcases step_keeps_inv h with ⟨q, hq⟩ | ⟨t, ht, -⟩
    · rw [hq]; trivial
    · rw [ht]; trivial
  · intro i
    obtain ⟨t, ht, -⟩ := exec_keeps_inv i h
    exact ⟨t, ht⟩

/-! ## What a tick step that completes has done -/

/-- Step 2 that completes has fed the drawn sample (R262). -/
theorem seqInput_next {s t : State} (h : seqInput s = .next t) :
    ∃ u, feedSample s.drawInput.1 s.drawInput.2 = .ok u ∧ t = u.goto .drain := by
  unfold seqInput at h
  split at h
  · cases h
  · next u hu => cases h; exact ⟨u, hu, rfl⟩

/-- Step 3 that completes has drained the bit, if there was one (R263). -/
theorem seqDrain_next {s t : State} (h : seqDrain s = .next t) :
    (s.dem.dv = true ∧ ∃ u b, getBit s = .ok (u, b) ∧ t = (u.emit (.bit b)).goto .enqueue) ∨
    (s.dem.dv = false ∧ t = s.goto .enqueue) := by
  unfold seqDrain at h
  split at h
  · next hda =>
    split at h
    · cases h
    · next u b hu => cases h; exact .inl ⟨hda, u, b, hu, rfl⟩
  · next hda => cases h; exact .inr ⟨by simpa [demDa] using hda, rfl⟩

/-- Step 4 that completes has polled the inbound source if the modulator was ready, and enqueued a byte if there was one
(R264). -/
theorem seqEnqueue_next {s t : State} (h : seqEnqueue s = .next t) :
    (s.mod.outI = 0 ∧ ∃ v, s.drawInbound.1 = some v ∧ t = (addByte v s.drawInbound.2).goto .output) ∨
    (s.mod.outI = 0 ∧ s.drawInbound.1 = none ∧ t = s.drawInbound.2.goto .output) ∨
    (s.mod.outI ≠ 0 ∧ t = s.goto .output) := by
  unfold seqEnqueue at h
  split at h
  · next hr =>
    have hout : s.mod.outI = 0 := by simpa [rfd] using hr
    split at h
    · next v hv => exact .inl ⟨hout, v, hv, (Host.Outcome.next.inj h).symm⟩
    · next hv => exact .inr (.inl ⟨hout, hv, (Host.Outcome.next.inj h).symm⟩)
  · next hr => exact .inr (.inr ⟨by simpa [rfd] using hr, (Host.Outcome.next.inj h).symm⟩)

/-- Step 5 that completes has written a sample of the frame, or IDLE_LEVEL when there is none (R265). -/
theorem seqOutput_next {s t : State} (h : seqOutput s = .next t) :
    (s.mod.buffI = s.cfg.nBits ∧ ∃ u v, getSample s = .ok (u, v) ∧ t = (u.emit (.output v)).goto .deadline) ∨
    (s.mod.buffI ≠ s.cfg.nBits ∧ t = (s.emit (.output Cfg.idleLevel)).goto .deadline) := by
  unfold seqOutput at h
  split at h
  · next hdv =>
    split at h
    · cases h
    · next u v hu => cases h; exact .inl ⟨by simpa [modDv] using hdv, u, v, hu, rfl⟩
  · next hdv => cases h; exact .inr ⟨by simpa [modDv] using hdv, rfl⟩

/-- Step 6 that completes has started the next tick, or changed nothing (R266). -/
theorem seqDeadline_next {s t : State} (h : seqDeadline s = .next t) :
    ∃ n, s.seq.cyc = some n ∧
      ((s.cfg.tickCycles ≤ n.toNat ∧ t = s.goto .startTimer) ∨ (n.toNat < s.cfg.tickCycles ∧ t = s)) := by
  unfold seqDeadline at h
  split at h
  · cases h
  · next n hn =>
    refine ⟨n, hn, ?_⟩
    split at h
    · next hb => cases h; exact .inl ⟨hb, rfl⟩
    · next hb => cases h; exact .inr ⟨Nat.lt_of_not_le hb, rfl⟩

/-! ## FAULT after an operation -/

/-- FAULT reads 0 exactly while no fault is recorded (R45, R46). -/
theorem faultWord_eq_zero_iff (s : State) : faultWord s = 0 ↔ s.fault = .noFault := by
  unfold faultWord
  cases s.fault <;> decide

/-- FAULT after `get_bit` (R214, R306). -/
theorem getBit_fault {s t : State} {b : Bit} (h : getBit s = .ok (t, b)) :
    (s.dem.dv = true ∧ t.fault = s.fault) ∨ (s.dem.dv = false ∧ t.fault = .demodDataNotReady) := by
  unfold getBit at h
  split at h
  · next hdv =>
    split at h
    · cases h
    · cases h; exact .inl ⟨hdv, rfl⟩
  · next hdv => cases h; exact .inr ⟨by simpa using hdv, rfl⟩

/-- Computing a frame leaves FAULT alone (R177). -/
theorem computeFrame_fault {s t : State} (h : computeFrame s = .ok t) : t.fault = s.fault := by
  unfold computeFrame at h
  split at h
  · split at h
    · cases h; rfl
    · cases h
  · cases h; rfl

/-- FAULT after `get_sample` (R177, R306). -/
theorem getSample_fault {s t : State} {v : Sample} (h : getSample s = .ok (t, v)) :
    (s.mod.buffI = s.cfg.nBits ∧ t.fault = s.fault) ∨
    (s.mod.buffI ≠ s.cfg.nBits ∧ t.fault = .getSampleWithoutDataValid) := by
  unfold getSample at h
  split at h
  · next hb => cases h; exact .inr ⟨hb, rfl⟩
  · next hb =>
    split at h
    · cases h
    · next u hu =>
      split at h
      · cases h
      · cases h; exact .inl ⟨not_not.mp hb, by rw [advanceOut_fault, computeFrame_fault hu]⟩

/-- FAULT after a command: as before, or a fault kind recorded (R46, R306). -/
theorem exec_next_fault {i : Instr} {s t : State} (h : exec i s = .next t) :
    t.fault = s.fault ∨ t.fault ≠ .noFault := by
  rcases exec_cases i s with ⟨u, r, he, hu⟩ | ⟨f, he, -⟩
  · rw [he, Host.Outcome.next.injEq] at h
    subst h
    rw [State.emit_fault]
    rcases hu with ⟨b, -, hb, -⟩ | ⟨v, -, hb, -⟩ | ⟨-, rfl, -⟩ | ⟨-, rfl, -⟩ | ⟨v, -, hg, -⟩ | ⟨v, -, hf, -⟩ |
      ⟨-, rfl, -⟩ | ⟨b, -, hg, -⟩ | ⟨-, rfl, -⟩ | ⟨-, rfl, -⟩
    · rw [hb]; exact (addBit_fault b s).imp_right fun k => by simp [k]
    · rw [hb]; exact (addByte_fault v s).imp_right fun k => by simp [k]
    · exact .inl rfl
    · exact .inl rfl
    · rcases getSample_fault hg with ⟨-, k⟩ | ⟨-, k⟩ <;> simp [k]
    · rcases feedSample_fault hf with ⟨-, k⟩ | ⟨-, k⟩ <;> simp [k]
    · exact .inl rfl
    · rcases getBit_fault hg with ⟨-, k⟩ | ⟨-, k⟩ <;> simp [k]
    · exact .inl rfl
    · exact .inl rfl
  · rw [he] at h; cases h

/-- FAULT after a step of the sequencer: as before, or BUFFER_FULL of step 4, or DEMOD_BUFFER_FULL of step 2 when a bit waits.
Steps 3 and 5 ask before they read and raise nothing (R263, R265). -/
theorem seqStep_next_fault {s t : State} (h : seqStep s = .next t) :
    t.fault = s.fault ∨ (s.seq.step = .enqueue ∧ t.fault = .bufferFull) ∨
    (s.seq.step = .input ∧ s.dem.dv = true ∧ t.fault = .demodBufferFull) := by
  cases hq : s.seq.step with
  | startTimer => simp only [seqStep, hq, seqStartTimer] at h; cases h; exact .inl rfl
  | input =>
    simp only [seqStep, hq] at h
    obtain ⟨u, hu, rfl⟩ := seqInput_next h
    rcases feedSample_fault hu with ⟨hdv, k⟩ | ⟨-, k⟩
    · exact .inr (.inr ⟨rfl, by simpa using hdv, k⟩)
    · exact .inl (by simpa using k)
  | drain =>
    simp only [seqStep, hq] at h
    rcases seqDrain_next h with ⟨hdv, u, b, hu, rfl⟩ | ⟨-, rfl⟩
    · rcases getBit_fault hu with ⟨-, k⟩ | ⟨hdv', -⟩
      · exact .inl k
      · rw [hdv] at hdv'; cases hdv'
    · exact .inl rfl
  | enqueue =>
    simp only [seqStep, hq] at h
    rcases seqEnqueue_next h with ⟨-, v, -, rfl⟩ | ⟨-, -, rfl⟩ | ⟨-, rfl⟩
    · rcases addByte_fault v s.drawInbound.2 with k | k
      · exact .inl (by simpa using k)
      · exact .inr (.inl ⟨rfl, by simpa using k⟩)
    · exact .inl (by simp)
    · exact .inl rfl
  | output =>
    simp only [seqStep, hq] at h
    rcases seqOutput_next h with ⟨hb, u, v, hu, rfl⟩ | ⟨-, rfl⟩
    · rcases getSample_fault hu with ⟨-, k⟩ | ⟨hb', -⟩
      · exact .inl k
      · exact absurd hb hb'
    · exact .inl rfl
  | deadline =>
    simp only [seqStep, hq] at h
    obtain ⟨n, -, ⟨-, rfl⟩ | ⟨-, rfl⟩⟩ := seqDeadline_next h <;> exact .inl rfl

/-! ## CFG and MODE after a step of the sequencer -/

/-- No step of the sequencer writes CFG or MODE (R50, R311). -/
theorem seqStep_next_frame {s t : State} (h : seqStep s = .next t) : t.cfg = s.cfg ∧ t.mode = s.mode := by
  cases hq : s.seq.step with
  | startTimer => simp only [seqStep, hq, seqStartTimer] at h; cases h; exact ⟨rfl, rfl⟩
  | input =>
    simp only [seqStep, hq] at h
    obtain ⟨u, hu, rfl⟩ := seqInput_next h
    obtain ⟨hc, hm, -⟩ := feedSample_frame hu
    exact ⟨by simpa using hc, by simpa using hm⟩
  | drain =>
    simp only [seqStep, hq] at h
    rcases seqDrain_next h with ⟨-, u, b, hu, rfl⟩ | ⟨-, rfl⟩
    · obtain ⟨hc, hm, -⟩ := getBit_frame hu; exact ⟨hc, hm⟩
    · exact ⟨rfl, rfl⟩
  | enqueue =>
    simp only [seqStep, hq] at h
    rcases seqEnqueue_next h with ⟨-, v, -, rfl⟩ | ⟨-, -, rfl⟩ | ⟨-, rfl⟩ <;> simp
  | output =>
    simp only [seqStep, hq] at h
    rcases seqOutput_next h with ⟨-, u, v, hu, rfl⟩ | ⟨-, rfl⟩
    · obtain ⟨hc, hm, -⟩ := getSample_frame hu; exact ⟨hc, hm⟩
    · exact ⟨rfl, rfl⟩
  | deadline =>
    simp only [seqStep, hq] at h
    obtain ⟨n, -, ⟨-, rfl⟩ | ⟨-, rfl⟩⟩ := seqDeadline_next h <;> exact ⟨rfl, rfl⟩

/-! ## What no step but reset undoes -/

/-- A step that answers a next state has waited, or has performed a move on the state with another environment; the move is a
reset only where the agenda says so (R13, R313). -/
theorem step_next {s t : State} (h : step s = .next t) :
    t = s ∨ ∃ m e, performMove m (s.setEnv e) = .next t ∧ (m = .reset → s.env.agenda.head? = some .reset) := by
  by_cases ha : s.cfg.Accepted
  · rcases step_runs ha with ⟨m, rest, hr, hs⟩ | ⟨-, -, hs⟩ | ⟨-, -, hs | hs⟩
    · exact .inr ⟨m, { s.env with agenda := rest }, hs.symm.trans h, fun hm => by simp [hr, hm]⟩
    · rw [hs] at h; cases h; exact .inl rfl
    · exact .inr ⟨.seq, { s.env with draws := s.env.draws + 1 }, hs.symm.trans h, by simp⟩
    · exact .inr ⟨.clk, { s.env with draws := s.env.draws + 1 }, hs.symm.trans h, by simp⟩
  · rcases step_not_accepted ha with hs | hs <;> (rw [hs] at h; cases h)

/-- No move writes CFG or MODE (R50, R311, R351). -/
theorem performMove_next_frame {m : Move} {s t : State} (h : performMove m s = .next t) :
    t.cfg = s.cfg ∧ t.mode = s.mode := by
  rcases performMove_next h with ⟨w, i, -, -, -, he⟩ | ⟨-, rfl⟩ | ⟨-, -, hs⟩ | ⟨-, -, rfl⟩ | ⟨-, -, rfl⟩
  · obtain ⟨hc, hm, -⟩ := exec_next_frame he; exact ⟨hc, hm⟩
  · exact ⟨rfl, rfl⟩
  · exact seqStep_next_frame hs
  · exact ⟨rfl, rfl⟩
  · exact ⟨rfl, rfl⟩

/-- FAULT after a move other than a reset: as before, or a fault kind recorded (R46). -/
theorem performMove_next_fault {m : Move} {s t : State} (hm : m ≠ .reset) (h : performMove m s = .next t) :
    t.fault = s.fault ∨ t.fault ≠ .noFault := by
  rcases performMove_next h with ⟨w, i, -, -, -, he⟩ | ⟨hr, -⟩ | ⟨-, -, hs⟩ | ⟨-, -, rfl⟩ | ⟨-, -, rfl⟩
  · exact exec_next_fault he
  · exact absurd hr hm
  · rcases seqStep_next_fault hs with k | ⟨-, k⟩ | ⟨-, -, k⟩ <;> simp [k]
  · exact .inl rfl
  · exact .inl rfl

/-- Settles O52. -/
theorem configurationAndModeNeverChange : Obligations.ConfigurationAndModeNeverChange := by
  unfold Obligations.ConfigurationAndModeNeverChange
  intro s t h
  rcases step_next h with rfl | ⟨m, e, hm, -⟩
  · exact ⟨rfl, rfl⟩
  · exact performMove_next_frame (s := s.setEnv e) hm

/-- Settles O50: every operation writes FAULT only with a fault kind, and only the reset event writes NO_FAULT. -/
theorem faultIsClearedOnlyByReset : Obligations.FaultIsClearedOnlyByReset := by
  unfold Obligations.FaultIsClearedOnlyByReset
  intro s t hr hs h
  simp only [ne_eq, faultWord_eq_zero_iff] at hs ⊢
  rcases step_next h with rfl | ⟨m, e, hm, hreset⟩
  · exact hs
  · rcases performMove_next_fault (fun k => hr (hreset k)) hm with k | k
    · rw [k]; exact hs
    · exact k

end Sys2Proof.Machine
end

section
/-! PROOFS. Family 30_encoding.md. Which words are commands and how every other word is refused (30_encoding.md R103, R105,
R107), the operand ranges of assembly text (R108), MOD_ADD_BYTE as eight MOD_ADD_BITs (R109), and what every command
leaves alone (R104). -/

namespace Sys2Proof

/-! ## The rows of the opcode table are disjoint -/

/-- Two rows that match one word fix the bits under both masks alike. -/
theorem OpcodeRow.patterns_agree {r q : OpcodeRow} {w : Word} (hr : r.matchesWord w) (hq : q.matchesWord w) :
    r.pattern &&& q.mask = q.pattern &&& r.mask := by
  simp only [OpcodeRow.matchesWord, beq_iff_eq] at hr hq
  rw [← hr, ← hq, BitVec.and_assoc, BitVec.and_assoc, BitVec.and_comm r.mask]

/-- Any two rows of the table fix some bit that is under both masks differently (R105). -/
theorem opcodeTable_disjoint :
    opcodeTable.Pairwise (fun r q => r.pattern &&& q.mask ≠ q.pattern &&& r.mask) := by decide

/-- At most one row matches a word (R105). -/
theorem matching_rows_length_le_one (w : Word) : (opcodeTable.filter (fun r => r.matchesWord w)).length ≤ 1 := by
  have hdisjoint := opcodeTable_disjoint.filter (fun r => r.matchesWord w)
  have hmatch : ∀ r ∈ opcodeTable.filter (fun r => r.matchesWord w), r.matchesWord w :=
    fun r hr => (List.mem_filter.mp hr).2
  generalize opcodeTable.filter (fun r => r.matchesWord w) = rows at hdisjoint hmatch ⊢
  match rows with
  | [] => simp
  | [_] => simp
  | r :: q :: _ =>
    have hne := List.rel_of_pairwise_cons hdisjoint (List.mem_cons_self (a := q))
    exact absurd (OpcodeRow.patterns_agree (hmatch r (by simp)) (hmatch q (by simp))) hne

/-! ## What the decoder answers -/

/-- A word that no row matches is illegal (R106). -/
theorem decode_of_no_row {w : Word} (h : opcodeTable.find? (fun r => r.matchesWord w) = none) :
    decode w = .error (illegalReason w) := by
  simp only [decode, h]

/-- A word that decodes matches a row of the table. -/
theorem row_of_decode {w : Word} {i : Instr} (h : decode w = .ok i) : ∃ r ∈ opcodeTable, r.matchesWord w := by
  match hfind : opcodeTable.find? (fun r => r.matchesWord w) with
  | none => rw [decode_of_no_row hfind] at h; cases h
  | some r =>
    exact ⟨r, List.mem_of_find?_eq_some hfind, List.find?_some (p := fun r : OpcodeRow => r.matchesWord w) hfind⟩

/-- A word that matches a row of the table decodes. -/
theorem decode_of_row {r : OpcodeRow} {w : Word} (hr : r ∈ opcodeTable) (hw : r.matchesWord w) :
    ∃ i, decode w = .ok i := by
  match hfind : opcodeTable.find? (fun r => r.matchesWord w) with
  | none => exact absurd hw (List.find?_eq_none.mp hfind r hr)
  | some q => exact ⟨q.build w, by simp only [decode, hfind]⟩

/-- A word is a command iff exactly one row matches it (R105). -/
theorem decode_ok_iff_one_row (w : Word) :
    (∃ i, decode w = .ok i) ↔ (opcodeTable.filter (fun r => r.matchesWord w)).length = 1 := by
  have hpos : (∃ i, decode w = .ok i) ↔ 0 < (opcodeTable.filter (fun r => r.matchesWord w)).length := by
    rw [List.length_filter_pos_iff]
    exact ⟨fun ⟨_, hi⟩ => row_of_decode hi, fun ⟨_, hr, hw⟩ => decode_of_row hr hw⟩
  have hle := matching_rows_length_le_one w
  rw [hpos]
  omega

/-! ## The fields of a command -/

/-- Every row's mask covers OP and RSV; its match has an assigned OP, a zero RSV and no DATA bit (R101, R103). -/
theorem opcodeTable_fields : ∀ r ∈ opcodeTable,
    (opField r.mask = BitVec.allOnes 8 ∧ opField r.pattern ∈ assignedOps) ∧
    (rsvField r.mask = BitVec.allOnes 8 ∧ rsvField r.pattern = 0) ∧ dataField r.pattern = 0 := by decide

/-- A field of a word under the field of a row's mask is the field of the row's match. -/
theorem field_of_row {r : OpcodeRow} {w : Word} (hw : w &&& r.mask = r.pattern) (start len : Nat) :
    w.extractLsb' start len &&& r.mask.extractLsb' start len = r.pattern.extractLsb' start len := by
  rw [← BitVec.extractLsb'_and, hw]

/-- A word of a row has an assigned OP, a zero RSV, and zeros where the row fixes DATA (R105). -/
theorem fields_of_row {r : OpcodeRow} {w : Word} (hr : r ∈ opcodeTable) (hw : w &&& r.mask = r.pattern) :
    opField w ∈ assignedOps ∧ rsvField w = 0 ∧ dataField w &&& dataField r.mask = 0 := by
  obtain ⟨⟨hopMask, hop⟩, ⟨hrsvMask, hrsv⟩, hdata⟩ := opcodeTable_fields r hr
  have hopField : opField w &&& opField r.mask = opField r.pattern := field_of_row hw 24 8
  have hrsvField : rsvField w &&& rsvField r.mask = rsvField r.pattern := field_of_row hw 16 8
  rw [hopMask, BitVec.and_allOnes] at hopField
  rw [hrsvMask, BitVec.and_allOnes] at hrsvField
  exact ⟨hopField ▸ hop, hrsvField.trans hrsv, (field_of_row hw 0 16).trans hdata⟩

/-- The word of a command decodes to it (R106). -/
theorem decode_of_encode_eq {i : Instr} {w : Word} (h : encode i = w) : decode w = .ok i :=
  h ▸ decode_encode i

/-- Settles O4: the legal words are the encodings of their commands, and no row matches an illegal neighbour. -/
theorem specWordsDecode : Obligations.SpecWordsDecode :=
  ⟨decode_of_encode_eq (by decide), decode_of_encode_eq (by decide), decode_of_encode_eq (by decide),
    decode_of_encode_eq (by decide), decode_of_encode_eq (by decide), decode_of_encode_eq (by decide),
    decode_of_encode_eq (by decide),
    decode_of_no_row (w := 0x01000002) rfl, decode_of_no_row (w := 0x11010000) rfl,
    decode_of_no_row (w := 0x06000000) rfl⟩

/-! ## Operands of assembly text -/

/-- A decimal byte operand outside 0 to 255 is out of range (R108). -/
theorem parseByte_decimal_outOfRange {t : List Char} {v : Int} (ht : parseNumeral t = some (.decimal v))
    (hv : v < 0 ∨ 255 < v) : parseByte t = .error .operandOutOfRange := by
  simp only [parseByte, ht, if_neg (show ¬ (0 ≤ v ∧ v ≤ 255) by omega)]

/-- A hexadecimal byte operand above 0xFF is out of range (R108). -/
theorem parseByte_hex_outOfRange {t : List Char} {v : Nat} (ht : parseNumeral t = some (.hex v)) (hv : 0xFF < v) :
    parseByte t = .error .operandOutOfRange := by
  simp only [parseByte, ht, if_neg (Nat.not_le.mpr hv)]

/-- A decimal sample operand outside −32768 to 32767 is out of range (R108). -/
theorem parseSample_decimal_outOfRange {t : List Char} {v : Int} (ht : parseNumeral t = some (.decimal v))
    (hv : v < -32768 ∨ 32767 < v) : parseSample t = .error .operandOutOfRange := by
  simp only [parseSample, ht, if_neg (show ¬ (-32768 ≤ v ∧ v ≤ 32767) by omega)]

/-- A hexadecimal sample operand above 0xFFFF is out of range (R108). -/
theorem parseSample_hex_outOfRange {t : List Char} {v : Nat} (ht : parseNumeral t = some (.hex v)) (hv : 0xFFFF < v) :
    parseSample t = .error .operandOutOfRange := by
  simp only [parseSample, ht, if_neg (Nat.not_le.mpr hv)]

/-- A number other than `0` and `1` is no bit operand (R108, log 17). -/
theorem parseBit_outOfRange {t : List Char} {n : Numeral} (ht : parseNumeral t = some n) (h0 : t ≠ ['0'])
    (h1 : t ≠ ['1']) : parseBit t = .error .operandOutOfRange := by
  simp only [parseBit, if_neg h0, if_neg h1, ht]

/-- Settles O6. -/
theorem operandOutOfRangeIsAssemblyError : Obligations.OperandOutOfRangeIsAssemblyError :=
  fun _ => ⟨fun _ => parseByte_decimal_outOfRange, fun _ => parseByte_hex_outOfRange,
    fun _ => parseSample_decimal_outOfRange, fun _ => parseSample_hex_outOfRange, fun _ => parseBit_outOfRange⟩

namespace Machine

/-! ## A step that offers a word -/

/-- A step that offers an illegal word in COMMAND mode is refused, the word's defect named (R105, R106). -/
theorem step_of_illegal_word {s : State} {w : Word} {rest : List Move} {e : DecodeError} (ha : s.cfg.Accepted)
    (hm : s.mode = .command) (hw : s.env.agenda = .command w :: rest) (he : decode w = .error e) :
    step s = .refused (.illegalWord w e) := by
  simp only [step_of_agenda ha hw, performMove, offerCommand, State.setAgenda_mode, hm, he]

/-- Settles O3: a word decodes iff a row matches it, the rows are disjoint, a row fixes OP, RSV and its DATA zeros, and a step
refuses a word that does not decode. -/
theorem wordIsCommandIffOneRowMatches : Obligations.WordIsCommandIffOneRowMatches := by
  unfold Obligations.WordIsCommandIffOneRowMatches
  intro w
  refine ⟨matching_rows_length_le_one w, decode_ok_iff_one_row w, fun i hi => ?_, fun hno s rest ha hm hw => ?_⟩
  · obtain ⟨r, hr, hmatch⟩ := row_of_decode hi
    obtain ⟨hop, hrsv, -⟩ := fields_of_row hr (by simpa [OpcodeRow.matchesWord] using hmatch)
    exact ⟨hop, hrsv, fun q hq hqw => (fields_of_row hq hqw).2.2⟩
  · cases he : decode w with
    | ok i => exact absurd ⟨i, he⟩ hno
    | error e => exact ⟨e, step_of_illegal_word ha hm hw he⟩

/-- Settles O7. -/
theorem stepRunsTheDecodedCommand : Obligations.StepRunsTheDecodedCommand :=
  fun _ _ _ _ => step_of_command

/-- Settles O8: the mode is looked at before the word. -/
theorem commandInScheduledModeIsRefused : Obligations.CommandInScheduledModeIsRefused := by
  unfold Obligations.CommandInScheduledModeIsRefused
  intro s w rest ha hm hw
  simp only [step_of_agenda ha hw, performMove, offerCommand, State.setAgenda_mode, hm]

/-! ## One command -/

/-- Settles O10. -/
theorem commandGivesOneResponseAndLeavesTheSequencer : Obligations.CommandGivesOneResponseAndLeavesTheSequencer :=
  fun _ _ _ => exec_next_frame

/-- `add_bit` does not look at the environment (R173). -/
theorem addBit_setEnv (b : Bit) (s : State) (e : Env) : addBit b (s.setEnv e) = (addBit b s).setEnv e := by
  by_cases h : s.mod.buffI = s.cfg.nBits
  · rw [addBit_full b h, addBit_full b (s := s.setEnv e) h]; rfl
  · rw [addBit_room b h, addBit_room b (s := s.setEnv e) h]; rfl

/-- Enqueuing a list of bits does not look at the environment. -/
theorem addBits_setEnv (bs : List Bit) (s : State) (e : Env) :
    bs.foldl (fun s b => addBit b s) (s.setEnv e) = (bs.foldl (fun s b => addBit b s) s).setEnv e := by
  induction bs generalizing s with
  | nil => rfl
  | cons b bs ih => rw [List.foldl_cons, addBit_setEnv, ih, List.foldl_cons]

/-- A run of MOD_ADD_BITs enqueues its bits in order, with one response each (R104, R173). -/
theorem execAll_modAddBits (bs : List Bit) (s : State) :
    execAll (bs.map .modAddBit) s = .next ((bs.foldl (fun s b => addBit b s) s).setEnv
      { s.env with trace := s.env.trace ++ List.replicate bs.length (.response voidResponse) }) := by
  induction bs generalizing s with
  | nil => simp [execAll, State.setEnv]
  | cons b bs ih =>
    simp only [List.map_cons, execAll, exec_modAddBit, ih]
    simp only [State.emit, addBits_setEnv]
    simp [State.setEnv, List.replicate_succ]

/-- MOD_ADD_BIT of each bit of a byte does what `add_byte` does, with eight responses (R109, R174). -/
theorem execAll_byteBits (v : Byte) (s : State) :
    execAll ((byteBits v).map .modAddBit) s = .next ((addByte v s).setEnv
      { s.env with trace := s.env.trace ++ List.replicate 8 (.response voidResponse) }) :=
  execAll_modAddBits (byteBits v) s

/-- Settles O24: the eight commands are those of `byteBits v`, and a MOD_ADD_BYTE differs from them in the responses only. -/
theorem addByteIsEightAddBits : Obligations.AddByteIsEightAddBits := by
  unfold Obligations.AddByteIsEightAddBits
  intro v s
  refine ⟨_, execAll_byteBits v s, ?_⟩
  rw [exec_modAddByte, State.emit, addByte_env]
  simp only [State.setEnv, State.answered, voidResponse]

end Machine
end Sys2Proof
end

section
/-! PROOFS. Family 40_q15_arith.md. The Q15 unit on exact integers: saturation and the floor shift (R130, R131), convolution
(R132 to R134), power and its slice (R133, R137, R138), the normalisation shift (R140), the extremes (R142, R143), the slicer
(R144, R145) and the threshold detector (R146). -/

namespace Sys2Proof.Machine

/-! ## Saturation and the floor shift -/

/-- `sat16` cuts at both ends of int16 (R130). -/
theorem sat16_eq_max_min (v : Int) : sat16 v = max (-32768) (min v 32767) := by
  unfold sat16
  split
  · omega
  · split <;> omega

/-- `asr` is the Euclidean quotient, which floors for a positive divisor (R131). -/
theorem asr_eq_ediv (v : Int) (n : Nat) : asr v n = v / 2 ^ n := by
  rw [asr, Nat.cast_pow, Nat.cast_ofNat]

theorem asr_eq_fdiv (v : Int) (n : Nat) : asr v n = v.fdiv (2 ^ n) := by
  rw [asr_eq_ediv, Int.fdiv_eq_ediv_of_nonneg v (by positivity)]

/-- The quotient of two integers, taken in ℚ and rounded down (R131). -/
theorem asr_eq_floor (v : Int) (n : Nat) : asr v n = ⌊(v : ℚ) / 2 ^ n⌋ := by
  rw [asr, ← Rat.floor_intCast_div_natCast, Nat.cast_pow, Nat.cast_ofNat]

theorem asr_mul_le (v : Int) (n : Nat) : asr v n * 2 ^ n ≤ v := by
  rw [asr_eq_ediv]
  exact Int.ediv_mul_le v (by positivity)

theorem lt_asr_add_one_mul (v : Int) (n : Nat) : v < (asr v n + 1) * 2 ^ n := by
  rw [asr_eq_ediv]
  exact Int.lt_ediv_add_one_mul_self v (by positivity)

/-- Rounding is toward minus infinity: −1 stays −1 under every shift (R131). -/
theorem asr_neg_one (n : Nat) : asr (-1) n = -1 := by
  rw [asr_eq_ediv]
  exact Int.ediv_eq_neg_one_of_neg_of_le (by decide) (Int.pow_pos (by decide))

theorem asr_zero (v : Int) : asr v 0 = v := by
  rw [asr_eq_ediv, pow_zero, Int.ediv_one]

/-- Settles O14. -/
theorem sat16ClampsAndAsrRoundsDown : Obligations.Sat16ClampsAndAsrRoundsDown := by
  unfold Obligations.Sat16ClampsAndAsrRoundsDown
  refine ⟨fun v => ⟨rfl, fun hlo hhi => sat16_of_range ⟨hlo, hhi⟩, by decide, by decide, by decide⟩, fun v n => ?_⟩
  exact ⟨asr_eq_floor v n, asr_mul_le v n, lt_asr_add_one_mul v n, asr_neg_one n, asr_zero v, by decide, by decide⟩

/-! ## Products and sums -/

/-- The integer of a sample is an int16 (R14, R15). -/
theorem sample_toInt_range (v : Sample) : -32768 ≤ v.toInt ∧ v.toInt ≤ 32767 :=
  ⟨v.le_toInt, Int.le_of_lt_add_one v.toInt_lt⟩

/-- A product of two samples is a Q30 value (R132). -/
theorem abs_q15Product_le (a b : Sample) : |q15Product a b| ≤ 2 ^ 30 := by
  have habs (v : Sample) : |v.toInt| ≤ 2 ^ 15 := by
    have hv := sample_toInt_range v
    exact abs_le.mpr (by omega)
  calc |q15Product a b| = |a.toInt| * |b.toInt| := abs_mul _ _
    _ ≤ 2 ^ 15 * 2 ^ 15 := mul_le_mul (habs a) (habs b) (abs_nonneg _) (by positivity)
    _ = 2 ^ 30 := by norm_num

/-- An accumulator that starts at 0 holds the exact sum of what it was given (R133). -/
theorem foldl_accumulate {α : Type} (f : α → Int) (l : List α) :
    l.foldl (fun acc a => acc + f a) 0 = (l.map f).sum := by
  rw [List.sum_eq_foldl, List.foldl_map]

/-! ## Convolution -/

/-- Output `n`'s accumulator is the sum over the indices that R134 gives. -/
theorem convAcc_eq_sum (x h : List Sample) (n : Nat) :
    convAcc x h n = ∑ k ∈ Finset.Icc (convLow h.length n) (convHigh x.length n),
      q15Product (element x k) (element h (n - k)) := by
  rw [convAcc, foldl_accumulate, ← Finset.Ico_add_one_right_eq_Icc, Finset.sum_Ico_eq_sum_range,
    ← List.sum_toFinset _ List.nodup_range, List.toFinset_range]

theorem convOut_toInt (x h : List Sample) (n : Nat) : (convOut x h n).toInt = sat16 (asr (convAcc x h n) 15) :=
  toSample_toInt (sat16_range _)

/-- Settles O15. -/
theorem convIsTheSaturatedShiftedSum : Obligations.ConvIsTheSaturatedShiftedSum := by
  unfold Obligations.ConvIsTheSaturatedShiftedSum
  intro x h _ _
  refine ⟨conv_length x h, fun n hn => ?_⟩
  rw [conv_getElem? x h hn, Option.map_some, convOut_toInt, sat16_eq_max_min, asr_eq_fdiv, convAcc_eq_sum]
  rfl

/-- A convolution output sums at most one product for each element of the kernel (R133). -/
theorem abs_convAcc_le (x h : List Sample) (n : Nat) : |convAcc x h n| ≤ (h.length : Int) * 2 ^ 30 := by
  have hcard : convHigh x.length n + 1 - convLow h.length n ≤ h.length := by
    unfold convHigh convLow
    omega
  rw [convAcc_eq_sum]
  calc |∑ k ∈ Finset.Icc (convLow h.length n) (convHigh x.length n), q15Product (element x k) (element h (n - k))|
    _ ≤ ∑ k ∈ Finset.Icc (convLow h.length n) (convHigh x.length n), |q15Product (element x k) (element h (n - k))| :=
      Finset.abs_sum_le_sum_abs _ _
    _ ≤ (Finset.Icc (convLow h.length n) (convHigh x.length n)).card • 2 ^ 30 :=
      Finset.sum_le_card_nsmul _ _ _ fun k _ => abs_q15Product_le _ _
    _ ≤ (h.length : Int) * 2 ^ 30 := by
      rw [Nat.card_Icc, nsmul_eq_mul]
      exact mul_le_mul_of_nonneg_right (by exact_mod_cast hcard) (by positivity)

/-! ## Power and its slice -/

/-- `power` is the sum of the squares (R137). -/
theorem power_eq_sum (y : List Sample) : power y = (y.map fun v => v.toInt * v.toInt).sum :=
  foldl_accumulate _ y

theorem power_nonneg (y : List Sample) : 0 ≤ power y := by
  rw [power_eq_sum]
  refine List.sum_nonneg fun p hp => ?_
  obtain ⟨v, -, rfl⟩ := List.mem_map.mp hp
  exact mul_self_nonneg _

/-- Each element adds at most (−32768)² to the power (R132, R137). -/
theorem power_le (y : List Sample) : power y ≤ (y.length : Int) * 2 ^ 30 := by
  have hle : ∀ p ∈ y.map (fun v => v.toInt * v.toInt), p ≤ 2 ^ 30 := by
    intro p hp
    obtain ⟨v, -, rfl⟩ := List.mem_map.mp hp
    exact (le_abs_self _).trans (abs_q15Product_le v v)
  simpa [power_eq_sum] using List.sum_le_card_nsmul _ _ hle

/-- Settles O17. -/
theorem powerIsTheSumOfSquares : Obligations.PowerIsTheSumOfSquares :=
  fun y => ⟨power_eq_sum y, power_nonneg y, power_le y⟩

/-- Settles O16. -/
theorem accumulatorsFitIn64Bits : Obligations.AccumulatorsFitIn64Bits := by
  unfold Obligations.AccumulatorsFitIn64Bits
  intro x h n hx hh
  have hconv := abs_convAcc_le x h n
  have hpow := power_le x
  rw [abs_of_nonneg (power_nonneg x)]
  constructor <;> omega

/-- The bits of the slice are the quotient's lowest 16 (R138). -/
theorem slice16_toNat (c : Cfg) (p : Int) : ((slice16 c p).toNat : Int) = p / 2 ^ c.pwrLo % 65536 := by
  rw [slice16, asr_eq_ediv, BitVec.toNat_ofInt]
  exact Int.toNat_of_nonneg (Int.emod_nonneg _ (by decide))

/-- The slice read as a signed value: a quotient whose bit 15 is set reads negative (R138). -/
theorem slice16_toInt (c : Cfg) (p : Int) : (slice16 c p).toInt =
    if p / 2 ^ c.pwrLo % 65536 < 32768 then p / 2 ^ c.pwrLo % 65536 else p / 2 ^ c.pwrLo % 65536 - 65536 := by
  rw [← slice16_toNat, BitVec.toInt_eq_toNat_cond]
  split <;> split <;> omega

/-- A power below 2^(PWR_LO+15) has no bit outside the slice's magnitude (R138, R139). -/
theorem slice16_toInt_of_small {c : Cfg} {p : Int} (h0 : 0 ≤ p) (hp : p < 2 ^ (c.pwrLo + 15)) :
    (slice16 c p).toInt = p / 2 ^ c.pwrLo := by
  have hnonneg : 0 ≤ p / 2 ^ c.pwrLo := Int.ediv_nonneg h0 (by positivity)
  have hlt : p / 2 ^ c.pwrLo < 32768 :=
    Int.ediv_lt_of_lt_mul (by positivity) (by rw [pow_add] at hp; linarith)
  have hmod : p / 2 ^ c.pwrLo % 65536 = p / 2 ^ c.pwrLo := Int.emod_eq_of_lt hnonneg (by linarith)
  rw [slice16_toInt, hmod, if_pos hlt]

/-- Settles O18. -/
theorem sliceIsTheSignedQuotient : Obligations.SliceIsTheSignedQuotient :=
  fun c p h0 => ⟨slice16_toNat c p, slice16_toInt c p, slice16_toInt_of_small h0⟩

/-! ## The normalisation shift -/

/-- An element of the shifted array is the shifted element (R140). -/
theorem shiftRight_getElem? (y : List Sample) (n i : Nat) :
    (shiftRight y n)[i]? = y[i]?.map fun v => toSample (asr v.toInt n) :=
  List.getElem?_map

/-- A sample divided by 16 with floor (R140, R141). -/
theorem asr_four_range (v : Sample) : -2048 ≤ asr v.toInt 4 ∧ asr v.toInt 4 ≤ 2047 := by
  have hv := sample_toInt_range v
  rw [asr_eq_ediv]
  omega

/-- Settles O19: the quotient is inside int16, so its pattern reads back as it. -/
theorem normalisationShiftDividesBySixteen : Obligations.NormalisationShiftDividesBySixteen := by
  unfold Obligations.NormalisationShiftDividesBySixteen
  refine fun y => ⟨shiftRight_length y 4, fun i v hv => ⟨toSample (asr v.toInt 4), ?_, ?_⟩⟩
  · rw [shiftRight_getElem?, hv, Option.map_some]
  · obtain ⟨hlo, hhi⟩ := asr_four_range v
    rw [toSample_toInt (by omega)]
    exact ⟨asr_eq_fdiv v.toInt 4, hlo, hhi⟩

/-! ## The extremes -/

/-- `minv` of a nonempty array is the library's minimum of its integers (R142). -/
theorem min?_map_toInt {z : List Sample} (hz : z ≠ []) : (z.map BitVec.toInt).min? = some (minv z) := by
  cases z with
  | nil => exact absurd rfl hz
  | cons a rest => rw [List.map_cons, List.min?_cons', List.foldl_map, minv]

/-- `maxv` of a nonempty array is the library's maximum of its integers (R143). -/
theorem max?_map_toInt {z : List Sample} (hz : z ≠ []) : (z.map BitVec.toInt).max? = some (maxv z) := by
  cases z with
  | nil => exact absurd rfl hz
  | cons a rest => rw [List.map_cons, List.max?_cons', List.foldl_map, maxv]

/-- `minv` is attained and bounds every element from below (R142). -/
theorem minv_least {z : List Sample} (hz : z ≠ []) : (∃ v ∈ z, v.toInt = minv z) ∧ ∀ v ∈ z, minv z ≤ v.toInt := by
  obtain ⟨hmem, hle⟩ := List.min?_eq_some_iff.mp (min?_map_toInt hz)
  exact ⟨List.mem_map.mp hmem, fun v hv => hle _ (List.mem_map_of_mem hv)⟩

/-- `maxv` is attained and bounds every element from above (R143). -/
theorem maxv_greatest {z : List Sample} (hz : z ≠ []) : (∃ v ∈ z, v.toInt = maxv z) ∧ ∀ v ∈ z, v.toInt ≤ maxv z := by
  obtain ⟨hmem, hge⟩ := List.max?_eq_some_iff.mp (max?_map_toInt hz)
  exact ⟨List.mem_map.mp hmem, fun v hv => hge _ (List.mem_map_of_mem hv)⟩

/-- Settles O20. -/
theorem minvAndMaxvAreTheExtremes : Obligations.MinvAndMaxvAreTheExtremes := by
  unfold Obligations.MinvAndMaxvAreTheExtremes
  intro z hz
  obtain ⟨hminMem, hminLe⟩ := minv_least hz
  obtain ⟨hmaxMem, hmaxGe⟩ := maxv_greatest hz
  exact ⟨hminMem, hminLe, hmaxMem, hmaxGe⟩

/-! ## The slicer -/

/-- `absv` is the absolute value (R144). -/
theorem absv_eq_abs (v : Int) : absv v = |v| := by
  unfold absv
  split
  · rw [abs_of_neg ‹_›]
  · rw [abs_of_nonneg (not_lt.mp ‹_›)]

/-- The slicer compares the peaks (R145). -/
theorem decideBit_eq_true_iff (z : List Sample) : decideBit z = true ↔ |minv z| < maxv z := by
  rw [decideBit, decide_eq_true_iff, absv_eq_abs, gt_iff_lt]

/-- The peaks may be given by any elements that bound the array (R145). -/
theorem decideBit_iff_peaks {z : List Sample} (hz : z ≠ []) : decideBit z = true ↔
    ∃ hi ∈ z, ∃ lo ∈ z, (∀ v ∈ z, lo.toInt ≤ v.toInt ∧ v.toInt ≤ hi.toInt) ∧ |lo.toInt| < hi.toInt := by
  obtain ⟨⟨lo, hlo, hloEq⟩, hmin⟩ := minv_least hz
  obtain ⟨⟨hi, hhi, hhiEq⟩, hmax⟩ := maxv_greatest hz
  rw [decideBit_eq_true_iff, ← hloEq, ← hhiEq]
  rw [← hloEq] at hmin
  rw [← hhiEq] at hmax
  constructor
  · exact fun hlt => ⟨hi, hhi, lo, hlo, fun v hv => ⟨hmin v hv, hmax v hv⟩, hlt⟩
  · rintro ⟨hi', hhi', lo', hlo', hbound, hlt⟩
    have hloSame : lo'.toInt = lo.toInt := le_antisymm (hbound lo hlo).1 (hmin lo' hlo')
    have hhiSame : hi'.toInt = hi.toInt := le_antisymm (hmax hi' hhi') (hbound hi hhi).2
    rwa [← hloSame, ← hhiSame]

/-- Where the greatest element does not exceed the magnitude of the least, the bit is 0 (R145). -/
theorem decideBit_eq_false {z : List Sample} (h : maxv z ≤ |minv z|) : decideBit z = false :=
  Bool.eq_false_iff.mpr fun hb => not_lt.mpr h ((decideBit_eq_true_iff z).mp hb)

/-- Settles O21. -/
theorem slicerComparesThePeaksStrictly : Obligations.SlicerComparesThePeaksStrictly := by
  unfold Obligations.SlicerComparesThePeaksStrictly
  intro z hz
  obtain ⟨⟨lo, hlo, hloEq⟩, -⟩ := minv_least hz
  obtain ⟨⟨hi, hhi, hhiEq⟩, -⟩ := maxv_greatest hz
  refine ⟨decideBit_iff_peaks hz, fun hsame => decideBit_eq_false ?_, fun hneg => decideBit_eq_false ?_⟩
  · rw [← hhiEq, ← hloEq, hsame hi hhi lo hlo]
    exact le_abs_self _
  · rw [← hhiEq]
    exact (hneg hi hhi).trans (abs_nonneg _)

/-! ## The threshold detector -/

/-- The detector compares the signed slice with THRESHOLD (R146). -/
theorem acceptPower_eq_true_iff (c : Cfg) (p : Int) :
    acceptPower c p = true ↔ c.threshold.toInt < (slice16 c p).toInt := by
  rw [acceptPower, decide_eq_true_iff, gt_iff_lt]

/-- Settles O22: at either end of int16 the comparison is decided by the slice's range. -/
theorem detectorExceedsTheThresholdStrictly : Obligations.DetectorExceedsTheThresholdStrictly := by
  unfold Obligations.DetectorExceedsTheThresholdStrictly
  intro c p
  obtain ⟨hlo, hhi⟩ := sample_toInt_range (slice16 c p)
  refine ⟨acceptPower_eq_true_iff c p, fun hmax => ?_, fun hmin => ?_⟩
  · have hthr : c.threshold.toInt = 32767 := by rw [hmax]; decide
    rw [Bool.eq_false_iff, Ne, acceptPower_eq_true_iff, hthr]
    omega
  · rw [acceptPower_eq_true_iff, hmin]
    omega

end Sys2Proof.Machine
end

section
/-! PROOFS. Family 41_modulator.md. The preamble (R172), what enqueuing one bit and a byte writes and what it leaves alone (R170,
R171, R173, R174, R180), the status reads (R175, R176) and the frame that MOD_GET_SAMPLE streams (R177 to R179). -/

namespace Sys2Proof.Machine

/-! ## The preamble -/

/-- Before the start-of-frame delimiter the preamble alternates from PRE_FIRST (R172). -/
theorem preambleBit_before {c : Cfg} {j : Nat} (h : j + 1 ≠ c.nPre) :
    preambleBit c j = xor c.preFirst (decide (j % 2 = 1)) := by
  simp only [preambleBit, if_neg h]

/-- The delimiter inverts the alternation (R172). -/
theorem preambleBit_delimiter {c : Cfg} {j : Nat} (h : j + 1 = c.nPre) :
    preambleBit c j = !(xor c.preFirst (decide (j % 2 = 1))) := by
  simp only [preambleBit, if_pos h]

/-- The parity of the next slot is the other one. -/
theorem decide_succ_odd (j : Nat) : decide ((j + 1) % 2 = 1) = !decide (j % 2 = 1) := by
  rw [← decide_not, decide_eq_decide]
  omega

/-- Settles O13: an alternation inverted once more repeats the bit before. -/
theorem preambleAlternatesUntilTheDelimiter : Obligations.PreambleAlternatesUntilTheDelimiter := by
  unfold Obligations.PreambleAlternatesUntilTheDelimiter
  intro c hpre
  refine ⟨?_, fun j hj => ?_, ?_⟩
  · rw [preambleBit_before (by omega)]
    simp
  · rw [preambleBit_before (by omega), preambleBit_before (by omega), decide_succ_odd, Bool.xor_not]
  · obtain ⟨n, hn⟩ : ∃ n, c.nPre = n + 2 := ⟨c.nPre - 2, by omega⟩
    rw [hn, show n + 2 - 1 = n + 1 from rfl, Nat.add_sub_cancel, preambleBit_delimiter hn.symm,
      preambleBit_before (by omega), decide_succ_odd, Bool.xor_not, Bool.not_not]

/-! ## One bit -/

/-- The response of a command, in the terms of the statements (R104). -/
theorem emit_response (s : State) (r : Response) : s.emit (.response r) = s.answered r := rfl

/-- A slot's sample, HOLD and IMPULSE in one expression (R170, R171). -/
theorem slotSample_eq (c : Cfg) (b : Bit) (k : Nat) :
    slotSample c b k =
      if c.mapMode = .hold ∨ k = 0 then (if b then c.levelHigh else c.levelLow) else 0 := by
  unfold slotSample mapLevel
  cases c.mapMode <;> simp

/-- Settles O23: with room `add_bit` is one `write_slot` and one move of the cursor. -/
theorem addBitWritesTheNextSlotOrFaults : Obligations.AddBitWritesTheNextSlotOrFaults := by
  unfold Obligations.AddBitWritesTheNextSlotOrFaults
  intro b s hlen
  refine ⟨fun hfull => ?_, fun hroom => ?_⟩
  · rw [exec_modAddBit, addBit_full b hfull]
    rfl
  · refine ⟨{ s.mod with map := writeSlot s.cfg s.mod.buffI b s.mod.map, buffI := s.mod.buffI + 1 }, ?_, rfl, rfl, rfl,
      writeSlot_length .., fun k hk => ?_, fun i hi => writeSlot_read_out _ _ _ _ hi⟩
    · rw [exec_modAddBit, addBit_room b hroom.ne]
      rfl
    · rw [← slotSample_eq]
      exact writeSlot_read_in _ _ _ _ hk (by rw [hlen]; exact slot_index_lt hroom hk)

/-! ## A list of bits -/

/-- `add_bit` of each bit of a list, oldest first: what `add_byte` does with the bits of its byte (R174). -/
def addBits (bs : List Bit) (s : State) : State := bs.foldl (fun s b => addBit b s) s

theorem addByte_eq_addBits (v : Byte) (s : State) : addByte v s = addBits (byteBits v) s := rfl

@[simp] theorem addBits_nil (s : State) : addBits [] s = s := rfl

theorem addBits_cons (b : Bit) (bs : List Bit) (s : State) : addBits (b :: bs) s = addBits bs (addBit b s) := rfl

/-- On a full buffer every bit is discarded, and FAULT is all that changes (R173, R174 corner case 2). -/
theorem addBits_full {s : State} (h : s.mod.buffI = s.cfg.nBits) :
    ∀ {bs : List Bit}, bs ≠ [] → addBits bs s = s.raise .bufferFull
  | [b], _ => addBit_full b h
  | b :: b' :: bs, _ => by
    rw [addBits_cons, addBit_full b h, addBits_full (s := s.raise .bufferFull) h (List.cons_ne_nil b' bs)]
    rfl

/-- FAULT after a list of bits: BUFFER_FULL as soon as one of them did not fit (R174). -/
def faultAfter (s : State) (n : Nat) : FaultKind :=
  if s.mod.buffI + n ≤ s.cfg.nBits then s.fault else .bufferFull

/-- What enqueuing the bits `bs` makes of the modulator state: the cursor moves over the slots of those that fit, these slots
hold them, and the rest is kept (R171, R174). -/
structure Enqueued (c : Cfg) (bs : List Bit) (m m' : ModState) : Prop where
  buffI : m'.buffI = min (m.buffI + bs.length) c.nBits
  outI : m'.outI = m.outI
  filt : m'.filt = m.filt
  mapLength : m'.map.length = m.map.length
  mapIn : ∀ (i k : Nat) (hi : i < bs.length), m.buffI + i < c.nBits → k < c.nSpb →
    Buffer.read m'.map ((m.buffI + i) * c.nSpb + k) = some (slotSample c bs[i] k)
  mapOut : ∀ i, i < m.buffI * c.nSpb ∨ m'.buffI * c.nSpb ≤ i → Buffer.read m'.map i = Buffer.read m.map i

/-- Nothing is enqueued where there is no bit, or no room. -/
theorem Enqueued.refl {c : Cfg} {bs : List Bit} {m : ModState} (hb : m.buffI ≤ c.nBits)
    (h : bs = [] ∨ m.buffI = c.nBits) : Enqueued c bs m m where
  buffI := by
    rcases h with rfl | h
    · simpa using hb
    · omega
  outI := rfl
  filt := rfl
  mapLength := rfl
  mapIn i k hi hroom := by
    rcases h with rfl | h
    · cases hi
    · omega
  mapOut _ _ := rfl

/-- A bit written into the next slot, and the rest enqueued after it. -/
theorem Enqueued.cons {c : Cfg} {b : Bit} {bs : List Bit} {m m' : ModState}
    (hlen : m.map.length = c.nBits * c.nSpb) (hb : m.buffI < c.nBits)
    (h : Enqueued c bs { m with map := writeSlot c m.buffI b m.map, buffI := m.buffI + 1 } m') :
    Enqueued c (b :: bs) m m' where
  buffI := by simp only [h.buffI, List.length_cons]; omega
  outI := h.outI
  filt := h.filt
  mapLength := by simpa using h.mapLength
  mapIn i k hi hroom hk := by
    cases i with
    | zero =>
      rw [Nat.add_zero, h.mapOut _ (.inl (slot_index_lt (Nat.lt_succ_self _) hk))]
      exact writeSlot_read_in _ _ _ _ hk (by rw [hlen]; exact slot_index_lt hb hk)
    | succ i =>
      have hnext := h.mapIn i k (by simpa using hi) (by simp only; omega) hk
      rwa [Nat.add_right_comm] at hnext
  mapOut i hi := by
    have hle : (m.buffI + 1) * c.nSpb ≤ m'.buffI * c.nSpb :=
      Nat.mul_le_mul_right _ (by rw [h.buffI]; simp only; omega)
    have hslot : m.buffI * c.nSpb ≤ (m.buffI + 1) * c.nSpb := Nat.mul_le_mul_right _ (Nat.le_succ _)
    rw [h.mapOut i (by simp only; omega)]
    exact writeSlot_read_out _ _ _ _ (by omega)

/-- Enqueuing a list of bits, by induction on it: a bit either fits into the next slot, or finds the buffer full as all bits after
it do (R174). -/
theorem addBits_enqueued (bs : List Bit) {s : State} (hlen : s.mod.map.length = s.cfg.nBits * s.cfg.nSpb)
    (hb : s.mod.buffI ≤ s.cfg.nBits) :
    ∃ m, addBits bs s = { s with mod := m, fault := faultAfter s bs.length } ∧ Enqueued s.cfg bs s.mod m := by
  induction bs generalizing s with
  | nil => exact ⟨s.mod, by simp [faultAfter, hb], .refl hb (.inl rfl)⟩
  | cons b bs ih =>
    by_cases hfull : s.mod.buffI = s.cfg.nBits
    · refine ⟨s.mod, ?_, .refl hb (.inr hfull)⟩
      rw [addBits_full hfull (List.cons_ne_nil b bs)]
      simp [State.raise, faultAfter, hfull]
    · have hroom := lt_of_le_of_ne hb hfull
      obtain ⟨m, hm, henq⟩ := @ih (addBit b s) (by simpa [addBit_room b hfull] using hlen)
        (by simpa [addBit_room b hfull] using hroom)
      rw [addBit_room b hfull] at hm henq
      refine ⟨m, ?_, .cons hlen hroom henq⟩
      rw [addBits_cons, addBit_room b hfull, hm]
      simp [State.setMod, faultAfter, Nat.add_right_comm _ 1, Nat.add_assoc]

/-! ## A byte -/

@[simp] theorem byteBits_length (v : Byte) : (byteBits v).length = 8 := rfl

/-- Bit `i` of the byte is enqueued `i`-th: least-significant first (R82). -/
theorem byteBits_getElem (v : Byte) (i : Nat) (hi : i < (byteBits v).length) : (byteBits v)[i] = v.getLsbD i := by
  simp [byteBits]

/-- `add_byte` on a full buffer: only FAULT changes (R174 corner case 2, R180). -/
theorem addByte_full (v : Byte) {s : State} (h : s.mod.buffI = s.cfg.nBits) : addByte v s = s.raise .bufferFull :=
  addBits_full h (by simp [byteBits])

/-- Settles O25: enqueuing a list of bits, for the bits of the byte. -/
theorem addByteEnqueuesWhatFits : Obligations.AddByteEnqueuesWhatFits := by
  unfold Obligations.AddByteEnqueuesWhatFits
  intro v s hlen hb
  obtain ⟨m, hm, henq⟩ := addBits_enqueued (byteBits v) hlen hb
  refine ⟨m, ?_, henq.buffI, henq.outI, henq.filt, henq.mapLength, fun i k hi hroom hk => ?_, henq.mapOut⟩
  · rw [exec_modAddByte, addByte_eq_addBits, hm]
    rfl
  · rw [← slotSample_eq, ← byteBits_getElem v i hi]
    exact henq.mapIn i k hi hroom hk

/-- Settles O29: a frame streams only from a full buffer (R38), which discards every bit. -/
theorem bitsOfferedDuringAStreamAreDiscarded : Obligations.BitsOfferedDuringAStreamAreDiscarded := by
  unfold Obligations.BitsOfferedDuringAStreamAreDiscarded
  intro s h hout
  have hfull := h.streaming hout
  refine ⟨fun b => ?_, fun v => ?_⟩
  · rw [exec_modAddBit, addBit_full b hfull]
    rfl
  · rw [exec_modAddByte, addByte_full v hfull]
    rfl

/-! ## The status reads -/

/-- A status output that tests a decidable condition answers 1 where it holds and 0 elsewhere (R104). -/
theorem boolResponse_decide (p : Prop) [Decidable p] : boolResponse (decide p) = if p then 1 else 0 := by
  simp [boolResponse]

/-- Settles O26: each status read is one response, its operation the identity. -/
theorem statusReadsAnswerTheStatusOutputs : Obligations.StatusReadsAnswerTheStatusOutputs := by
  unfold Obligations.StatusReadsAnswerTheStatusOutputs
  intro s
  refine ⟨?_, ?_, ?_⟩
  · rw [exec_modIsRfd, emit_response, ← boolResponse_decide]
    rfl
  · rw [exec_modIsDv, emit_response, ← boolResponse_decide]
    rfl
  · rw [exec_demIsDa, emit_response]
    rfl

/-! ## One sample of a frame -/

/-- `get_sample` writes the modulator state only, once the frame is computed (R177). -/
theorem advanceOut_eq_setMod (s : State) : advanceOut s = s.setMod (advanceOut s).mod := by
  unfold advanceOut
  split <;> rfl

/-- After the last sample the modulator is ready for data again (R177, R179). -/
theorem advanceOut_last {s : State} (h : s.mod.outI + 1 = s.cfg.lFilt) :
    (advanceOut s).mod =
      { buffI := s.cfg.nPre, outI := 0, map := s.mod.map, filt := Buffer.noValue s.cfg.lFilt } := by
  simp only [advanceOut, if_pos h, State.setMod_mod]

/-- Inside the frame only the read cursor moves (R177). -/
theorem advanceOut_inside {s : State} (h : s.mod.outI + 1 ≠ s.cfg.lFilt) :
    (advanceOut s).mod = { s.mod with outI := s.mod.outI + 1 } := by
  simp only [advanceOut, if_neg h, State.setMod_mod]

/-- The state whose FILT holds the frame of the symbols `xs` (R35, R177). -/
def State.withFrame (s : State) (xs : List Sample) : State :=
  s.setMod { s.mod with filt := Buffer.ofValues (conv xs s.cfg.pf) }

/-- MOD_GET_SAMPLE of a complete frame: it answers sample OUT_I of the convolution, writes the modulator state only and keeps its
invariant (R177). -/
theorem exec_modGetSample_valid {s : State} (h : s.mod.Inv s.cfg) (hb : s.mod.buffI = s.cfg.nBits) :
    ∃ xs v, Buffer.readFirst s.mod.map s.cfg.lMap = some xs ∧ (conv xs s.cfg.pf)[s.mod.outI]? = some v ∧
      exec .modGetSample s = .next ((s.answered v).setMod (advanceOut (s.withFrame xs)).mod) ∧
      (advanceOut (s.withFrame xs)).mod.Inv s.cfg := by
  obtain ⟨xs, v, hxs, hv, hget⟩ := getSample_valid h hb
  refine ⟨xs, v, hxs, hv, ?_, advanceOut_keeps_inv h hb (hb ▸ h.buffLow) hxs⟩
  rw [exec_modGetSample_ok hget, advanceOut_eq_setMod]
  rfl

/-- Settles O27: the cursor is at the last sample of the frame or before it. -/
theorem getSampleStreamsTheFilteredFrameOrFaults : Obligations.GetSampleStreamsTheFilteredFrameOrFaults := by
  unfold Obligations.GetSampleStreamsTheFilteredFrameOrFaults
  intro s
  refine ⟨fun hb => exec_modGetSample_ok (getSample_not_valid hb), fun h hb => ?_⟩
  obtain ⟨xs, v, hxs, hv, hexec, -⟩ := exec_modGetSample_valid h hb
  refine ⟨xs, v, _, hxs, hv, hexec, advanceOut_map _, fun hlast => ?_, fun hinside => ?_⟩
  · rw [advanceOut_last (s := s.withFrame xs) hlast]
    exact ⟨rfl, rfl, rfl⟩
  · rw [advanceOut_inside (s := s.withFrame xs) hinside]
    exact ⟨rfl, rfl, rfl⟩

/-! ## The whole frame -/

/-- The convolution of the whole MAP buffer has L_FILT samples (R9, R134). -/
theorem frame_length {c : Cfg} {b : Buffer} {xs : List Sample} (h : Buffer.readFirst b c.lMap = some xs) :
    (conv xs c.pf).length = c.lFilt := by
  rw [conv_length, (Buffer.readFirst_getElem? h).1]
  rfl

/-- The samples from OUT_I on, by induction on how many are left: each command answers the first of them and leaves a state that
streams the others, until the last one makes the block ready again (R178, R179). -/
theorem execAll_rest_of_frame {n : Nat} {s : State} {xs : List Sample} (h : s.mod.Inv s.cfg)
    (hb : s.mod.buffI = s.cfg.nBits) (hxs : Buffer.readFirst s.mod.map s.cfg.lMap = some xs)
    (hn : s.mod.outI + n = s.cfg.lFilt) :
    ∃ t, execAll (List.replicate n .modGetSample) s = .next t ∧
      t.env = { s.env with trace := s.env.trace ++ ((conv xs s.cfg.pf).drop s.mod.outI).map .response } ∧
      t.mod = { buffI := s.cfg.nPre, outI := 0, map := s.mod.map, filt := Buffer.noValue s.cfg.lFilt } ∧
      t.fault = s.fault ∧ t.dem = s.dem := by
  induction n generalizing s with
  | zero => exact absurd h.outRange (by omega)
  | succ n ih =>
    obtain ⟨xs', v, hxs', hv, hexec, hinv⟩ := exec_modGetSample_valid h hb
    obtain rfl : xs' = xs := Option.some.inj (hxs'.symm.trans hxs)
    have hdrop : (conv xs' s.cfg.pf).drop s.mod.outI = v :: (conv xs' s.cfg.pf).drop (s.mod.outI + 1) := by
      rw [List.drop_eq_getElem?_toList_append, hv]
      rfl
    by_cases hlast : s.mod.outI + 1 = s.cfg.lFilt
    · have hmod := advanceOut_last (s := s.withFrame xs') hlast
      obtain rfl : n = 0 := by omega
      refine ⟨(s.answered v).setMod (advanceOut (s.withFrame xs')).mod, ?_, ?_, hmod, rfl, rfl⟩
      · simp only [List.replicate_succ, List.replicate_zero, execAll, hexec]
      · rw [hdrop, List.drop_eq_nil_of_le (by rw [frame_length hxs, hlast])]
        rfl
    · have hmod := advanceOut_inside (s := s.withFrame xs') hlast
      rw [hmod] at hexec hinv
      obtain ⟨t, hrun, henv, hready, hfault, hdem⟩ :=
        ih (s := (s.answered v).setMod { (s.withFrame xs').mod with outI := s.mod.outI + 1 }) hinv hb hxs
          (by rw [State.setMod_mod, State.setMod_cfg, Nat.add_right_comm]; exact hn)
      refine ⟨t, ?_, ?_, hready, hfault, hdem⟩
      · rw [← hrun, List.replicate_succ, execAll, hexec]
        rfl
      · rw [henv, hdrop]
        simp [State.answered]

/-- Settles O28: the rest of the frame from OUT_I = 0 is the whole of it. -/
theorem frameStreamsWholeAndReadyAgain : Obligations.FrameStreamsWholeAndReadyAgain := by
  unfold Obligations.FrameStreamsWholeAndReadyAgain
  intro s h hb hout
  obtain ⟨xs, hxs⟩ := map_readable h hb
  obtain ⟨t, hrun, henv, hmod, hfault, hdem⟩ := execAll_rest_of_frame h hb hxs (n := s.cfg.lFilt) (by omega)
  rw [hout, List.drop_zero] at henv
  exact ⟨xs, t, hxs, hrun, henv, hmod, hfault, hdem⟩

end Sys2Proof.Machine
end

section
/-! PROOFS. Family 42_demodulator.md. What a fed sample does to the window and what the sample that fills it writes (R210 to R212,
R215, R216), and the bit that DEM_GET_BIT hands over once (R214, R218). -/

namespace Sys2Proof.Machine

/-! ## The bit -/

/-- A program whose first command completes goes on from the state it leaves. -/
theorem execAll_cons_next {i : Instr} {s t : State} (h : exec i s = .next t) (p : List Instr) :
    execAll (i :: p) s = execAll p t := by
  simp only [execAll, h]

/-- DEM_GET_BIT with a bit waiting (R214). -/
theorem exec_demGetBit_ready {s : State} {b : Bit} (h : s.dem.dv = true) (hb : s.dem.dbit = some b) :
    exec .demGetBit s = .next ((s.answered (if b then 1 else 0)).setDem { s.dem with dv := false }) :=
  exec_demGetBit_ok (getBit_ready h hb)

/-- DEM_GET_BIT with none (R214, R304). -/
theorem exec_demGetBit_not_ready {s : State} (h : s.dem.dv = false) :
    exec .demGetBit s = .next ((s.answered 0).raise .demodDataNotReady) :=
  exec_demGetBit_ok (getBit_not_ready h)

/-- Settles O33: the two ways of `get_bit`, by DV. -/
theorem getBitReturnsAndClearsOrFaults : Obligations.GetBitReturnsAndClearsOrFaults := by
  unfold Obligations.GetBitReturnsAndClearsOrFaults
  exact fun _ => ⟨fun _ => exec_demGetBit_ready, exec_demGetBit_not_ready⟩

/-- Settles O34: the first command clears DV, which the second one finds. -/
theorem oneBitPerDetection : Obligations.OneBitPerDetection := by
  unfold Obligations.OneBitPerDetection
  intro s h hdv
  obtain ⟨b, hb⟩ := Option.isSome_iff_exists.mp (h.dbitHeld hdv)
  exact ⟨b, _, hb, (execAll_cons_next (exec_demGetBit_ready hdv hb) _).trans
    (execAll_cons_next (exec_demGetBit_not_ready rfl) []), List.append_assoc .., rfl, rfl, rfl⟩

/-! ## Runs of elements of a buffer -/

/-- Writing the element after a run of values makes the run one longer. -/
theorem Buffer.readFirst_write_succ {b : Buffer} {n : Nat} {xs : List Sample} (h : Buffer.readFirst b n = some xs)
    (hn : n < b.length) (v : Sample) : Buffer.readFirst (Buffer.write b n v) (n + 1) = some (xs ++ [v]) := by
  induction n generalizing b xs with
  | zero =>
    obtain ⟨a, rest, rfl⟩ := List.exists_cons_of_length_pos hn
    obtain rfl : [] = xs := by simpa only [Buffer.readFirst, Option.some.injEq] using h
    simp [Buffer.write, Buffer.readFirst]
  | succ n ih =>
    match b, h with
    | some a :: rest, h =>
      obtain ⟨ys, hys, rfl⟩ := Option.map_eq_some_iff.mp h
      exact congrArg (Option.map (a :: ·)) (ih hys (Nat.lt_of_succ_lt_succ hn))

/-- A buffer that is read whole holds these values and nothing else. -/
theorem Buffer.eq_ofValues_of_readFirst {b : Buffer} {xs : List Sample} (h : Buffer.readFirst b b.length = some xs) :
    b = Buffer.ofValues xs := by
  induction b generalizing xs with
  | nil =>
    obtain rfl : [] = xs := Option.some.inj h
    rfl
  | cons a rest ih =>
    match a, h with
    | some a, h =>
      obtain ⟨ys, hys, rfl⟩ := Option.map_eq_some_iff.mp h
      exact congrArg (some a :: ·) (ih hys)

/-! ## A sample that does not fill the window -/

/-- DEM_FEED_SAMPLE short of a full window stores the sample and answers nothing (R210). -/
theorem exec_demFeedSample_stores {s : State} (v : Sample) (h : s.dem.dv = false) (hw : s.dem.winI + 1 ≠ s.cfg.nSpb) :
    exec (.demFeedSample v) s = .next ((s.answered 0).setDem (storeSample v s.dem)) :=
  exec_demFeedSample_ok (feedSample_stored v h hw)

/-- Settles O31: the new window is the old one with element WIN_I written. -/
theorem feedSampleStoresIntoTheWindow : Obligations.FeedSampleStoresIntoTheWindow := by
  unfold Obligations.FeedSampleStoresIntoTheWindow
  intro v s hdv hlen hroom
  exact ⟨_, exec_demFeedSample_stores v hdv hroom.ne, Buffer.length_write .., Buffer.read_write_same (by omega) v,
    fun i hi => Buffer.read_write_other hi.symm v⟩

/-- A sample that does not fill the window keeps the demodulator's invariant (R40, R57). -/
theorem storeSample_keeps_inv {s : State} (v : Sample) (h : s.dem.Inv s.cfg) (hdv : s.dem.dv = false)
    (hw : s.dem.winI + 1 ≠ s.cfg.nSpb) : (storeSample v s.dem).Inv s.cfg := by
  obtain ⟨t, ht, hinv⟩ := feedSample_keeps_inv v h
  obtain rfl := Except.ok.inj ((feedSample_stored v hdv hw).symm.trans ht)
  exact hinv

/-! ## The sample that fills the window -/

/-- What the analysis of the window `xs` makes of a demodulator state without a waiting bit: the window is kept, its cursor returns
to 0, Y, Z and DET_POWER are written, and DV and DBIT on acceptance (R210 to R212). -/
structure Analysed (c : Cfg) (xs : List Sample) (d d' : DemState) : Prop where
  win : d'.win = Buffer.ofValues xs
  winI : d'.winI = 0
  y : d'.y = Buffer.ofValues (conv xs c.mf)
  z : d'.z = Buffer.ofValues (shiftRight (conv xs c.mf) 4)
  detPower : d'.detPower = slice16 c (power (conv xs c.mf))
  dstate : d'.dstate = d.dstate
  dv_iff : d'.dv = true ↔ c.threshold.toInt < d'.detPower.toInt
  dbit : d'.dbit = if d'.dv then some (decideBit (shiftRight (conv xs c.mf) 4)) else d.dbit

/-- Detection of a full window, and the return of its cursor, is its analysis (R211, R212). -/
theorem detect_analysed {c : Cfg} {xs : List Sample} {d : DemState} (hdv : d.dv = false)
    (hwin : d.win = Buffer.ofValues xs) : Analysed c xs d { detect c xs d with winI := 0 } := by
  obtain ⟨hy, hz, hp, hw, -, hs⟩ := detect_always c xs d
  have hacc := acceptPower_eq_true_iff c (power (conv xs c.mf))
  rw [← hp] at hacc
  rcases detect_decision c xs d with ⟨hdv', hb, ha⟩ | ⟨hdv', hb, ha⟩
  · exact ⟨hw.trans hwin, rfl, hy, hz, hp, hs, by simpa [hdv', ha] using hacc, by simpa [hdv'] using hb⟩
  · exact ⟨hw.trans hwin, rfl, hy, hz, hp, hs, by simpa [hdv', hdv, ha] using hacc, by simpa [hdv', hdv] using hb⟩

/-- An analysis looks at no part of the state before it that storing a sample writes. -/
theorem Analysed.before_storeSample {c : Cfg} {xs : List Sample} {v : Sample} {d d' : DemState}
    (h : Analysed c xs (storeSample v d) d') : Analysed c xs d d' :=
  ⟨h.win, h.winI, h.y, h.z, h.detPower, h.dstate, h.dv_iff, h.dbit⟩

/-- The samples of the window so far can be read (R57). -/
theorem stored_readable {c : Cfg} {d : DemState} (h : d.Inv c) :
    ∃ us, Buffer.readFirst d.win d.winI = some us :=
  Option.isSome_iff_exists.mp ((Buffer.readFirst_isSome_iff _ _).mpr h.winFilled)

/-- DEM_FEED_SAMPLE of the sample that fills the window after `us` analyses the window of `us` and this sample (R210). -/
theorem exec_demFeedSample_completes {s : State} (v : Sample) {us : List Sample} (h : s.dem.Inv s.cfg)
    (hdv : s.dem.dv = false) (hw : s.dem.winI + 1 = s.cfg.nSpb)
    (hus : Buffer.readFirst s.dem.win s.dem.winI = some us) :
    ∃ d, exec (.demFeedSample v) s = .next ((s.answered 0).setDem d) ∧ Analysed s.cfg (us ++ [v]) s.dem d := by
  have hlen : s.dem.win.length = s.dem.winI + 1 := h.winLength.trans hw.symm
  have hwindow := Buffer.readFirst_write_succ hus (by omega) v
  have hfeed := feedSample_completes v hdv hw (hw ▸ hwindow)
  rw [← hlen, ← Buffer.length_write s.dem.win s.dem.winI v] at hwindow
  exact ⟨_, exec_demFeedSample_ok hfeed,
    (detect_analysed (d := storeSample v s.dem) hdv (Buffer.eq_ofValues_of_readFirst hwindow)).before_storeSample⟩

/-- Settles O32: the window is the samples stored so far and the one that fills it. -/
theorem fullWindowIsAnalysed : Obligations.FullWindowIsAnalysed := by
  unfold Obligations.FullWindowIsAnalysed
  intro v s h hdv hw
  obtain ⟨us, hus⟩ := stored_readable h
  obtain ⟨hlen, hread⟩ := Buffer.readFirst_getElem? hus
  obtain ⟨d, hexec, ha⟩ := exec_demFeedSample_completes v h hdv hw hus
  refine ⟨us ++ [v], d, by simp [hlen, hw], fun i hi => ?_, ?_, hexec, ha.win, ha.winI, ha.y, ha.z, ha.detPower, ha.dstate,
    fun hthr => ?_, fun hthr => ?_⟩
  · rw [List.getElem?_append_left (by omega), hread i hi]
  · rw [← hlen, List.getElem?_concat_length]
  · have hd := ha.dv_iff.mpr hthr
    exact ⟨hd, by rw [ha.dbit, if_pos hd]⟩
  · have hd := mt ha.dv_iff.mp hthr
    exact ⟨Bool.eq_false_iff.mpr hd, by rw [ha.dbit, if_neg hd]⟩

/-! ## The whole window -/

/-- The samples `vs` that fill the window after `us`, by induction on them: each is stored, and the last one has the whole window
analysed (R215, R216). -/
theorem execAll_rest_of_window {us vs : List Sample} {s : State} (h : s.dem.Inv s.cfg) (hdv : s.dem.dv = false)
    (hus : Buffer.readFirst s.dem.win s.dem.winI = some us) (hn : s.dem.winI + vs.length = s.cfg.nSpb) :
    ∃ t, execAll (vs.map .demFeedSample) s = .next t ∧ t.fault = s.fault ∧ t.mod = s.mod ∧
      Analysed s.cfg (us ++ vs) s.dem t.dem := by
  have hrange : s.dem.winI < s.cfg.nSpb := h.winRange
  induction vs generalizing s us with
  | nil => exact absurd hn hrange.ne
  | cons v vs ih =>
    rw [List.length_cons] at hn
    by_cases hw : s.dem.winI + 1 = s.cfg.nSpb
    · obtain rfl : vs = [] := List.eq_nil_of_length_eq_zero (by omega)
      obtain ⟨d, hexec, ha⟩ := exec_demFeedSample_completes v h hdv hw hus
      exact ⟨(s.answered 0).setDem d, execAll_cons_next hexec [], rfl, rfl, ha⟩
    · have hinv := storeSample_keeps_inv v h hdv hw
      have hus' := Buffer.readFirst_write_succ hus (by rw [h.winLength]; exact hrange) v
      obtain ⟨t, hrun, hfault, hmod, ha⟩ := ih (s := (s.answered 0).setDem (storeSample v s.dem)) hinv hdv hus'
        ((Nat.add_right_comm ..).trans hn) hinv.winRange
      rw [List.append_assoc] at ha
      exact ⟨t, (execAll_cons_next (exec_demFeedSample_stores v hdv hw) _).trans hrun, hfault, hmod, ha.before_storeSample⟩

/-- Settles O35: from WIN_I = 0 the samples fed are the whole window. -/
theorem windowYieldsABitIffItsPowerExceeds : Obligations.WindowYieldsABitIffItsPowerExceeds := by
  unfold Obligations.WindowYieldsABitIffItsPowerExceeds
  intro s vs h hdv hw hlen
  have hempty : Buffer.readFirst s.dem.win s.dem.winI = some [] := by rw [hw, Buffer.readFirst]
  obtain ⟨t, hrun, hfault, hmod, ha⟩ := execAll_rest_of_window (vs := vs) h hdv hempty (by omega)
  exact ⟨t, hrun, ha.winI, ha.win, hfault, hmod, ha.detPower, ha.dv_iff, fun hd => by simp [ha.dbit, hd],
    fun hd => by simp [ha.dbit, hd]⟩

end Sys2Proof.Machine
end

section
/-! PROOFS. Family 43_status.md. The two accessors (R250, R251), and that nothing else reads FAULT or DET_POWER (R252): every
operation, run on a state with the two registers hidden, completes as it does on the state itself, and leaves a state that differs
in the two registers only. -/

namespace Sys2Proof.Machine

/-! ## The accessors -/

/-- Settles O36: each accessor is one response, the register's word. -/
theorem diagnosticReadsReturnFaultAndDetPower : Obligations.DiagnosticReadsReturnFaultAndDetPower := by
  unfold Obligations.DiagnosticReadsReturnFaultAndDetPower
  intro s
  constructor
  · rw [exec_rdFault, emit_response, faultWord]
    cases s.fault <;> rfl
  · rw [exec_rdDetpwr, emit_response]

/-! ## Hiding FAULT and DET_POWER -/

namespace State

@[simp] theorem blind_cfg (s : State) : s.blind.cfg = s.cfg := rfl
@[simp] theorem blind_mode (s : State) : s.blind.mode = s.mode := rfl
@[simp] theorem blind_mod (s : State) : s.blind.mod = s.mod := rfl
@[simp] theorem blind_dem (s : State) : s.blind.dem = { s.dem with detPower := 0 } := rfl
@[simp] theorem blind_seq (s : State) : s.blind.seq = s.seq := rfl
@[simp] theorem blind_env (s : State) : s.blind.env = s.env := rfl
@[simp] theorem blind_blind (s : State) : s.blind.blind = s.blind := rfl
@[simp] theorem setMod_blind (s : State) (m : ModState) : (s.setMod m).blind = s.blind.setMod m := rfl
@[simp] theorem emit_blind (s : State) (e : Event) : (s.emit e).blind = s.blind.emit e := rfl
@[simp] theorem goto_blind (s : State) (n : TickStep) : (s.goto n).blind = s.blind.goto n := rfl

/-- A draw of an input sample answers the same and does the same to the hidden state (R312). -/
@[simp] theorem drawInput_of_blind (s : State) : s.blind.drawInput = (s.drawInput.1, s.drawInput.2.blind) := by
  simp only [drawInput, blind_env]
  split <;> rfl

/-- A poll of the inbound source answers the same and does the same to the hidden state (R312). -/
@[simp] theorem drawInbound_of_blind (s : State) : s.blind.drawInbound = (s.drawInbound.1, s.drawInbound.2.blind) := by
  simp only [drawInbound, blind_env]
  split <;> rfl

end State

/-! ## The modulator reads neither register -/

/-- `add_bit` writes FAULT without reading it (R173). -/
theorem addBit_of_blind (b : Bit) (s : State) : (addBit b s.blind).blind = (addBit b s).blind := by
  by_cases h : s.mod.buffI = s.cfg.nBits
  · rw [addBit_full b h, addBit_full b (s := s.blind) h]; rfl
  · rw [addBit_room b h, addBit_room b (s := s.blind) h]; rfl

/-- Enqueuing a list of bits does not read either register, by induction on the list: each bit may have written FAULT. -/
theorem addBits_of_blind (bs : List Bit) (s : State) : (addBits bs s.blind).blind = (addBits bs s).blind := by
  induction bs generalizing s with
  | nil => rfl
  | cons b bs ih =>
    calc (addBits bs (addBit b s.blind)).blind
        = (addBits bs (addBit b s.blind).blind).blind := (ih _).symm
      _ = (addBits bs (addBit b s).blind).blind := by rw [addBit_of_blind]
      _ = (addBits bs (addBit b s)).blind := ih _

/-- `add_byte` does not read either register (R174). -/
theorem addByte_of_blind (v : Byte) (s : State) : (addByte v s.blind).blind = (addByte v s).blind :=
  addBits_of_blind (byteBits v) s

/-- A frame is computed from MAP alone (R177). -/
theorem computeFrame_of_blind {s t : State} (h : computeFrame s = .ok t) : computeFrame s.blind = .ok t.blind := by
  by_cases hout : s.mod.outI = 0
  · cases hxs : Buffer.readFirst s.mod.map s.cfg.lMap with
    | none => simp [computeFrame, hout, hxs] at h
    | some xs =>
      simp only [computeFrame, State.blind_mod, State.blind_cfg, if_pos hout, hxs] at h ⊢
      cases h
      rfl
  · simp only [computeFrame, State.blind_mod, hout, if_false] at h ⊢
    cases h
    rfl

/-- The cursors move by the configuration alone (R177). -/
theorem advanceOut_of_blind (s : State) : advanceOut s.blind = (advanceOut s).blind := by
  by_cases hlast : s.mod.outI + 1 = s.cfg.lFilt <;> simp [advanceOut, hlast]

/-- `get_sample` returns the same sample where the two registers are hidden (R177). -/
theorem getSample_of_blind {s t : State} {v : Sample} (h : getSample s = .ok (t, v)) :
    ∃ u, getSample s.blind = .ok (u, v) ∧ u.blind = t.blind := by
  by_cases hb : s.mod.buffI = s.cfg.nBits
  · simp only [getSample, hb, ne_eq, not_true_eq_false, if_false] at h
    split at h
    · cases h
    · next w hw =>
      split at h
      · cases h
      · next x hx =>
        cases h
        refine ⟨advanceOut w.blind, ?_, by rw [advanceOut_of_blind, State.blind_blind]⟩
        simp [getSample, hb, computeFrame_of_blind hw, hx]
  · rw [getSample_not_valid hb] at h
    cases h
    exact ⟨_, getSample_not_valid (s := s.blind) hb, rfl⟩

/-! ## The demodulator reads neither register -/

/-- `feed_sample` does the same where the two registers are hidden, the two apart: detection writes DET_POWER whatever it held
(R210, R211). -/
theorem feedSample_of_blind {s t : State} {v : Sample} (h : feedSample v s = .ok t) :
    ∃ u, feedSample v s.blind = .ok u ∧ u.blind = t.blind := by
  cases hdv : s.dem.dv with
  | true =>
    rw [feedSample_dropped v hdv] at h
    cases h
    exact ⟨_, feedSample_dropped (s := s.blind) v hdv, rfl⟩
  | false =>
    by_cases hw : s.dem.winI + 1 = s.cfg.nWin
    · cases hxs : Buffer.readFirst (Buffer.write s.dem.win s.dem.winI v) s.cfg.nWin with
      | none => simp [feedSample, storeSample, hdv, hw, hxs] at h
      | some xs =>
        rw [feedSample_completes v hdv hw hxs] at h
        cases h
        exact ⟨_, feedSample_completes (s := s.blind) v hdv hw hxs, rfl⟩
    · rw [feedSample_stored v hdv hw] at h
      cases h
      exact ⟨_, feedSample_stored (s := s.blind) v hdv hw, rfl⟩

/-- `get_bit` returns the same bit where the two registers are hidden (R214). -/
theorem getBit_of_blind {s t : State} {b : Bit} (h : getBit s = .ok (t, b)) :
    ∃ u, getBit s.blind = .ok (u, b) ∧ u.blind = t.blind := by
  cases hdv : s.dem.dv with
  | true =>
    cases hb : s.dem.dbit with
    | none => simp [getBit, hdv, hb] at h
    | some c =>
      rw [getBit_ready hdv hb] at h
      cases h
      exact ⟨_, getBit_ready (s := s.blind) hdv hb, rfl⟩
  | false =>
    rw [getBit_not_ready hdv] at h
    cases h
    exact ⟨_, getBit_not_ready (s := s.blind) hdv, rfl⟩

/-! ## Every command but the two accessors -/

/-- A command other than the accessors answers the same response where FAULT and DET_POWER are hidden, and does the same to the rest
of the state (R252). -/
theorem exec_of_blind {i : Instr} {s t : State} (hf : i ≠ .rdFault) (hp : i ≠ .rdDetpwr) (h : exec i s = .next t) :
    ∃ u, exec i s.blind = .next u ∧ u.blind = t.blind := by
  rcases exec_cases i s with ⟨w, r, he, hw⟩ | ⟨f, he, -⟩
  · rw [he] at h
    cases h
    rcases hw with ⟨b, rfl, rfl, rfl⟩ | ⟨v, rfl, rfl, rfl⟩ | ⟨rfl, rfl, rfl⟩ | ⟨rfl, rfl, rfl⟩ | ⟨v, rfl, hg, rfl⟩ |
      ⟨v, rfl, hg, rfl⟩ | ⟨rfl, rfl, rfl⟩ | ⟨b, rfl, hg, rfl⟩ | ⟨rfl, -⟩ | ⟨rfl, -⟩
    · exact ⟨_, exec_modAddBit b s.blind, by simp [addBit_of_blind]⟩
    · exact ⟨_, exec_modAddByte v s.blind, by simp [addByte_of_blind]⟩
    · exact ⟨_, exec_modIsRfd _, rfl⟩
    · exact ⟨_, exec_modIsDv _, rfl⟩
    · obtain ⟨u, hu, hb⟩ := getSample_of_blind hg
      exact ⟨_, exec_modGetSample_ok hu, by simp [hb]⟩
    · obtain ⟨u, hu, hb⟩ := feedSample_of_blind hg
      exact ⟨_, exec_demFeedSample_ok hu, by simp [hb]⟩
    · exact ⟨_, exec_demIsDa _, rfl⟩
    · obtain ⟨u, hu, hb⟩ := getBit_of_blind hg
      exact ⟨_, exec_demGetBit_ok hu, by simp [hb]⟩
    · exact absurd rfl hf
    · exact absurd rfl hp
  · rw [he] at h
    cases h

/-! ## Every step of SCHEDULED mode -/

/-- A step of the sequencer does the same where FAULT and DET_POWER are hidden, the two apart (R252, R260). -/
theorem seqStep_of_blind {s t : State} (h : seqStep s = .next t) :
    ∃ u, seqStep s.blind = .next u ∧ u.blind = t.blind := by
  simp only [seqStep, State.blind_seq] at h ⊢
  generalize s.seq.step = tick at h ⊢
  cases tick with
  | startTimer =>
    cases h
    exact ⟨_, rfl, rfl⟩
  | input =>
    obtain ⟨w, hw, rfl⟩ := seqInput_next h
    obtain ⟨u, hu, hb⟩ := feedSample_of_blind hw
    exact ⟨u.goto .drain, by simp [seqInput, hu], by simp [hb]⟩
  | drain =>
    rcases seqDrain_next h with ⟨hdv, w, b, hw, rfl⟩ | ⟨hdv, rfl⟩
    · obtain ⟨u, hu, hb⟩ := getBit_of_blind hw
      exact ⟨(u.emit (.bit b)).goto .enqueue, by simp [seqDrain, demDa, hdv, hu], by simp [hb]⟩
    · exact ⟨s.blind.goto .enqueue, by simp [seqDrain, demDa, hdv], rfl⟩
  | enqueue =>
    rcases seqEnqueue_next h with ⟨hout, v, hv, rfl⟩ | ⟨hout, hv, rfl⟩ | ⟨hout, rfl⟩
    · exact ⟨(addByte v s.drawInbound.2.blind).goto .output, by simp [seqEnqueue, rfd, hout, hv],
        by simp [addByte_of_blind]⟩
    · exact ⟨s.drawInbound.2.blind.goto .output, by simp [seqEnqueue, rfd, hout, hv], rfl⟩
    · exact ⟨s.blind.goto .output, by simp [seqEnqueue, rfd, hout], rfl⟩
  | output =>
    rcases seqOutput_next h with ⟨hb, w, v, hw, rfl⟩ | ⟨hb, rfl⟩
    · obtain ⟨u, hu, hub⟩ := getSample_of_blind hw
      exact ⟨(u.emit (.output v)).goto .deadline, by simp [seqOutput, modDv, hb, hu], by simp [hub]⟩
    · exact ⟨(s.blind.emit (.output Cfg.idleLevel)).goto .deadline, by simp [seqOutput, modDv, hb], rfl⟩
  | deadline =>
    obtain ⟨n, hn, ⟨hc, rfl⟩ | ⟨hc, rfl⟩⟩ := seqDeadline_next h
    · exact ⟨s.blind.goto .startTimer, by simp [seqDeadline, hn, hc], rfl⟩
    · exact ⟨t.blind, by simp [seqDeadline, hn, Nat.not_le.mpr hc], rfl⟩

/-- A move of SCHEDULED mode does the same where FAULT and DET_POWER are hidden, the two apart (R252). -/
theorem performMove_of_blind {m : Move} {s t : State} (hm : s.mode = .scheduled) (h : performMove m s = .next t) :
    ∃ u, performMove m s.blind = .next u ∧ u.blind = t.blind := by
  rcases performMove_next h with ⟨w, i, -, hc, -⟩ | ⟨rfl, rfl⟩ | ⟨rfl, -, hs⟩ | ⟨rfl, -, rfl⟩ | ⟨-, hc, -⟩
  · rw [hm] at hc; cases hc
  · exact ⟨s.blind.resetEvent, rfl, rfl⟩
  · simpa only [performMove, State.blind_mode, hm] using seqStep_of_blind hs
  · exact ⟨clkStep s.blind, by simp only [performMove, State.blind_mode, hm], rfl⟩
  · rw [hm] at hc; cases hc

/-- Who moves next in SCHEDULED mode, and the environment it moves in: the agenda's oldest move, or the sequencer or the clock as a
free value says (R13, R268, log 3). -/
def scheduledMove (e : Env) : Move × Env :=
  match e.agenda with
  | m :: rest => (m, { e with agenda := rest })
  | [] => (if Config.freeSeqMoves e.draws then .seq else .clk, { e with draws := e.draws + 1 })

/-- In SCHEDULED mode the environment alone says which move a step performs (R13, R268). -/
theorem step_scheduled {s : State} (ha : s.cfg.Accepted) (hm : s.mode = .scheduled) :
    step s = performMove (scheduledMove s.env).1 (s.setEnv (scheduledMove s.env).2) := by
  cases hag : s.env.agenda with
  | cons m rest =>
    simp only [step_of_agenda ha hag, scheduledMove, hag]
    rfl
  | nil =>
    simp only [step, guardedStep, if_pos ha.1, if_pos ha.2, agentStep, unscheduledMove, hag, hm, scheduledMove,
      State.countDraw]

/-- A step that answers a next state runs an accepted configuration (R10, R133). -/
theorem step_next_accepted {s t : State} (h : step s = .next t) : s.cfg.Accepted := by
  by_contra ha
  rcases step_not_accepted ha with hs | hs <;> (rw [hs] at h; cases h)

/-- A step of SCHEDULED mode does the same where FAULT and DET_POWER are hidden, the two apart (R252). -/
theorem step_of_blind {s t : State} (hm : s.mode = .scheduled) (h : step s = .next t) :
    ∃ u, step s.blind = .next u ∧ u.blind = t.blind := by
  have ha := step_next_accepted h
  rw [step_scheduled ha hm] at h
  rw [step_scheduled (s := s.blind) ha hm]
  exact performMove_of_blind (s := s.setEnv (scheduledMove s.env).2) hm h

/-- Settles O49. -/
theorem faultAndPowerAreOnlyObserved : Obligations.FaultAndPowerAreOnlyObserved :=
  ⟨fun _ _ _ => exec_of_blind, fun _ _ => step_of_blind⟩

end Sys2Proof.Machine
end

section
/-! PROOFS. Family 44_scheduler.md. The six tick steps one by one (R260 to R268), what a step of SCHEDULED mode does said once and, from
it, the order of a tick's events (R269, R270), the invariants of SCHEDULED mode (R271) and the independence of time (R275). -/

namespace Sys2Proof.Machine

/-! ## The operations look at neither the sequencer nor the environment -/

/-- The block's two paths and FAULT, in another sequencer state and another environment. -/
def State.around (s : State) (q : SeqState) (e : Env) : State := { s with seq := q, env := e }

namespace State

@[simp] theorem around_cfg (s : State) (q : SeqState) (e : Env) : (s.around q e).cfg = s.cfg := rfl
@[simp] theorem around_mod (s : State) (q : SeqState) (e : Env) : (s.around q e).mod = s.mod := rfl
@[simp] theorem around_dem (s : State) (q : SeqState) (e : Env) : (s.around q e).dem = s.dem := rfl
@[simp] theorem around_seq (s : State) (q : SeqState) (e : Env) : (s.around q e).seq = q := rfl
@[simp] theorem around_env (s : State) (q : SeqState) (e : Env) : (s.around q e).env = e := rfl
@[simp] theorem around_setMod (s : State) (q : SeqState) (e : Env) (m : ModState) :
    (s.around q e).setMod m = (s.setMod m).around q e := rfl

end State

/-- `add_bit` looks at neither (R173). -/
theorem addBit_around (b : Bit) (s : State) (q : SeqState) (e : Env) :
    addBit b (s.around q e) = (addBit b s).around q e := by
  by_cases h : s.mod.buffI = s.cfg.nBits
  · rw [addBit_full b h, addBit_full b (s := s.around q e) h]; rfl
  · rw [addBit_room b h, addBit_room b (s := s.around q e) h]; rfl

/-- Enqueuing a list of bits looks at neither. -/
theorem addBits_around (bs : List Bit) (s : State) (q : SeqState) (e : Env) :
    addBits bs (s.around q e) = (addBits bs s).around q e := by
  induction bs generalizing s with
  | nil => rfl
  | cons b bs ih => rw [addBits_cons, addBit_around, ih, addBits_cons]

/-- `add_byte` looks at neither (R174). -/
theorem addByte_around (v : Byte) (s : State) (q : SeqState) (e : Env) :
    addByte v (s.around q e) = (addByte v s).around q e :=
  addBits_around (byteBits v) s q e

/-- `feed_sample` looks at neither (R210). -/
theorem feedSample_around (v : Sample) (s : State) (q : SeqState) (e : Env) :
    feedSample v (s.around q e) = (feedSample v s).map (·.around q e) := by
  cases hdv : s.dem.dv with
  | true =>
    rw [feedSample_dropped v hdv, feedSample_dropped v (s := s.around q e) hdv]
    rfl
  | false =>
    by_cases hw : s.dem.winI + 1 = s.cfg.nWin
    · cases hxs : Buffer.readFirst (Buffer.write s.dem.win s.dem.winI v) s.cfg.nWin with
      | none => simp [feedSample, storeSample, hdv, hw, hxs, Except.map]
      | some xs =>
        rw [feedSample_completes v hdv hw hxs, feedSample_completes v (s := s.around q e) hdv hw hxs]
        rfl
    · rw [feedSample_stored v hdv hw, feedSample_stored v (s := s.around q e) hdv hw]
      rfl

/-- Computing a frame looks at neither (R177). -/
theorem computeFrame_around (s : State) (q : SeqState) (e : Env) :
    computeFrame (s.around q e) = (computeFrame s).map (·.around q e) := by
  by_cases hout : s.mod.outI = 0
  · cases hxs : Buffer.readFirst s.mod.map s.cfg.lMap <;> simp [computeFrame, hout, hxs, Except.map]
  · simp [computeFrame, hout, Except.map]

/-- The cursors move by neither (R177). -/
theorem advanceOut_around (s : State) (q : SeqState) (e : Env) :
    advanceOut (s.around q e) = (advanceOut s).around q e := by
  by_cases hlast : s.mod.outI + 1 = s.cfg.lFilt <;> simp [advanceOut, hlast]

/-- `get_sample` looks at neither (R177). -/
theorem getSample_around (s : State) (q : SeqState) (e : Env) :
    getSample (s.around q e) = (getSample s).map (fun r => (r.1.around q e, r.2)) := by
  by_cases hb : s.mod.buffI = s.cfg.nBits
  · cases hw : computeFrame s with
    | error f => simp [getSample, computeFrame_around, hb, hw, Except.map]
    | ok w =>
      cases hv : Buffer.read w.mod.filt w.mod.outI <;>
        simp [getSample, computeFrame_around, hb, hw, Except.map, hv, advanceOut_around]
  · rw [getSample_not_valid hb, getSample_not_valid (s := s.around q e) hb]
    rfl

/-! ## What a step of the sequencer does, said once -/

/-- What the tick steps do, one constructor per way a step can go (R261 to R266). -/
inductive Ticked (s : State) : State → Prop
  | timerStarted (hq : s.seq.step = .startTimer) :
      Ticked s ((s.setSeq { s.seq with cyc := some 0 }).goto .input)
  | sampleFed (hq : s.seq.step = .input) {u : State} (hu : feedSample s.drawInput.1 s.drawInput.2 = .ok u) :
      Ticked s (u.goto .drain)
  | bitDrained (hq : s.seq.step = .drain) (hdv : s.dem.dv = true) {b : Bit} (hb : s.dem.dbit = some b) :
      Ticked s (((s.setDem { s.dem with dv := false }).emit (.bit b)).goto .enqueue)
  | noBit (hq : s.seq.step = .drain) (hdv : s.dem.dv = false) : Ticked s (s.goto .enqueue)
  | byteEnqueued (hq : s.seq.step = .enqueue) (hout : s.mod.outI = 0) {v : Byte} (hv : s.drawInbound.1 = some v) :
      Ticked s ((addByte v s.drawInbound.2).goto .output)
  | noByte (hq : s.seq.step = .enqueue) (hout : s.mod.outI = 0) (hv : s.drawInbound.1 = none) :
      Ticked s (s.drawInbound.2.goto .output)
  | notPolled (hq : s.seq.step = .enqueue) (hout : s.mod.outI ≠ 0) : Ticked s (s.goto .output)
  | sampleWritten (hq : s.seq.step = .output) (hb : s.mod.buffI = s.cfg.nBits) {u : State} {v : Sample}
      (hu : getSample s = .ok (u, v)) : Ticked s ((u.emit (.output v)).goto .deadline)
  | idleWritten (hq : s.seq.step = .output) (hb : s.mod.buffI ≠ s.cfg.nBits) :
      Ticked s ((s.emit (.output Cfg.idleLevel)).goto .deadline)
  | tickEnded (hq : s.seq.step = .deadline) {n : BitVec 32} (hn : s.seq.cyc = some n)
      (hc : s.cfg.tickCycles ≤ n.toNat) : Ticked s (s.goto .startTimer)
  | waited (hq : s.seq.step = .deadline) {n : BitVec 32} (hn : s.seq.cyc = some n)
      (hc : n.toNat < s.cfg.tickCycles) : Ticked s s

/-- A step of the sequencer that completes goes one of these ways. -/
theorem ticked_of_seqStep {s t : State} (h : seqStep s = .next t) : Ticked s t := by
  cases hq : s.seq.step with
  | startTimer => simp only [seqStep, hq, seqStartTimer] at h; cases h; exact .timerStarted hq
  | input =>
    simp only [seqStep, hq] at h
    obtain ⟨u, hu, rfl⟩ := seqInput_next h
    exact .sampleFed hq hu
  | drain =>
    simp only [seqStep, hq] at h
    rcases seqDrain_next h with ⟨hdv, u, b, hu, rfl⟩ | ⟨hdv, rfl⟩
    · cases hb : s.dem.dbit with
      | none => simp [getBit, hdv, hb] at hu
      | some c => rw [getBit_ready hdv hb] at hu; cases hu; exact .bitDrained hq hdv hb
    · exact .noBit hq hdv
  | enqueue =>
    simp only [seqStep, hq] at h
    rcases seqEnqueue_next h with ⟨hout, v, hv, rfl⟩ | ⟨hout, hv, rfl⟩ | ⟨hout, rfl⟩
    · exact .byteEnqueued hq hout hv
    · exact .noByte hq hout hv
    · exact .notPolled hq hout
  | output =>
    simp only [seqStep, hq] at h
    rcases seqOutput_next h with ⟨hb, u, v, hu, rfl⟩ | ⟨hb, rfl⟩
    · exact .sampleWritten hq hb hu
    · exact .idleWritten hq hb
  | deadline =>
    simp only [seqStep, hq] at h
    obtain ⟨n, hn, ⟨hc, rfl⟩ | ⟨hc, rfl⟩⟩ := seqDeadline_next h
    · exact .tickEnded hq hn hc
    · exact .waited hq hn hc

namespace Ticked

/-- Each of these ways is taken by the sequencer. -/
theorem seqStep_eq {s t : State} (h : Ticked s t) : seqStep s = .next t := by
  cases h with
  | timerStarted hq => simp only [seqStep, hq, seqStartTimer]
  | sampleFed hq hu => simp only [seqStep, hq, seqInput, hu]
  | bitDrained hq hdv hb => simp only [seqStep, hq, seqDrain, demDa, hdv, if_true, getBit_ready hdv hb]
  | noBit hq hdv => simp [seqStep, hq, seqDrain, demDa, hdv]
  | byteEnqueued hq hout hv => simp [seqStep, hq, seqEnqueue, rfd, hout, hv]
  | noByte hq hout hv => simp [seqStep, hq, seqEnqueue, rfd, hout, hv]
  | notPolled hq hout => simp [seqStep, hq, seqEnqueue, rfd, hout]
  | sampleWritten hq hb hu => simp [seqStep, hq, seqOutput, modDv, hb, hu]
  | idleWritten hq hb => simp [seqStep, hq, seqOutput, modDv, hb]
  | tickEnded hq hn hc => simp only [seqStep, hq, seqDeadline, hn, if_pos hc]
  | waited hq hn hc => simp only [seqStep, hq, seqDeadline, hn, if_neg (Nat.not_le.mpr hc)]

/-- No step of the sequencer touches the agenda (R312). -/
theorem agenda {s t : State} (h : Ticked s t) : t.env.agenda = s.env.agenda := by
  cases h with
  | sampleFed hq hu =>
    obtain ⟨-, -, -, -, he⟩ := feedSample_frame hu
    simp [he]
  | sampleWritten hq hb hu =>
    obtain ⟨-, -, -, -, he, -⟩ := getSample_frame hu
    simp [he]
  | byteEnqueued | noByte => simp
  | timerStarted | bitDrained | noBit | notPolled | idleWritten | tickEnded | waited => rfl

end Ticked

/-! ## Steps 1 and 6, and the clock -/

/-- A step of SCHEDULED mode whose agenda says so is the sequencer's (R13). -/
theorem step_of_seq {s : State} {rest : List Move} (ha : s.cfg.Accepted) (hm : s.mode = .scheduled)
    (hag : s.env.agenda = .seq :: rest) : step s = seqStep (s.setAgenda rest) := by
  simp only [step_of_agenda ha hag, performMove, State.setAgenda_mode, hm]

/-- A step of SCHEDULED mode whose agenda says so is the clock's (R13, R268). -/
theorem step_of_clk {s : State} {rest : List Move} (ha : s.cfg.Accepted) (hm : s.mode = .scheduled)
    (hag : s.env.agenda = .clk :: rest) : step s = .next (clkStep (s.setAgenda rest)) := by
  simp only [step_of_agenda ha hag, performMove, State.setAgenda_mode, hm]

/-- Settles O37. -/
theorem tickStartsTheTimer : Obligations.TickStartsTheTimer := by
  unfold Obligations.TickStartsTheTimer
  intro s rest ha hm hq hag
  exact (step_of_seq ha hm hag).trans (Ticked.timerStarted (s := s.setAgenda rest) hq).seqStep_eq

/-- Settles O42: the wait ends or goes on as the unsigned comparison says. -/
theorem tickWaitsForTheDeadline : Obligations.TickWaitsForTheDeadline := by
  unfold Obligations.TickWaitsForTheDeadline
  intro s n rest ha hm hq hn hag
  rw [step_of_seq ha hm hag]
  refine ⟨fun hc => ?_, fun hc => (Ticked.waited (s := s.setAgenda rest) hq hn hc).seqStep_eq⟩
  rw [(Ticked.tickEnded (s := s.setAgenda rest) hq hn hc).seqStep_eq, ← hn]
  rfl

/-- A clock step on a written CYC counts it, and changes nothing else (R268). -/
theorem clkStep_eq {s : State} {n : BitVec 32} (hn : s.seq.cyc = some n) :
    clkStep s = s.setSeq { s.seq with cyc := some (n + 1) } := by
  simp [clkStep, hn]

/-- Settles O44: the 32-bit successor is the successor modulo 2^32. -/
theorem clockCountsModulo : Obligations.ClockCountsModulo := by
  unfold Obligations.ClockCountsModulo
  intro s n rest ha hm hn hag
  refine ⟨n + 1, by simp [BitVec.toNat_add], ?_⟩
  rw [step_of_clk ha hm hag, clkStep_eq (s := s.setAgenda rest) hn]
  rfl

/-- The budget of a tick is a value of the timer (R8, R10). -/
theorem tickCycles_lt {c : Cfg} (h : c.Accepted) : c.tickCycles < 4294967296 := by
  obtain ⟨⟨-, -, -, -, -, -, -, hlt⟩, -⟩ := h
  exact hlt

/-- A waiting tick with `k` counts to go: it counts them, without a wrap, and the sequencer leaves; by induction on `k` (R266,
R268). -/
theorem run_of_counts {s : State} {n : BitVec 32} {k : Nat} {rest : List Move} (ha : s.cfg.Accepted)
    (hm : s.mode = .scheduled) (hq : s.seq.step = .deadline) (hn : s.seq.cyc = some n)
    (hk : n.toNat + k = s.cfg.tickCycles) (hag : s.env.agenda = List.replicate k .clk ++ .seq :: rest) :
    ∃ n' : BitVec 32, n'.toNat = s.cfg.tickCycles ∧ Host.Core.run Sys2Proof.core (k + 1) s =
      .next (s.around { step := .startTimer, cyc := some n' } { s.env with agenda := rest }) := by
  induction k generalizing s n with
  | zero =>
    refine ⟨n, hk, ?_⟩
    rw [core_run_next 0 ((tickWaitsForTheDeadline s n rest ha hm hq hn hag).1 hk.ge)]
    rfl
  | succ k ih =>
    have hbound := tickCycles_lt ha
    have hcount : (n + 1).toNat + k = s.cfg.tickCycles := by
      have hone : BitVec.toNat (1 : BitVec 32) = 1 := rfl
      rw [BitVec.toNat_add, hone]
      omega
    obtain ⟨n', hn', hrun⟩ := ih (s := clkStep (s.setAgenda (List.replicate k .clk ++ .seq :: rest))) ha hm hq
      (congrArg (Option.map (· + 1)) hn) hcount rfl
    exact ⟨n', hn', (core_run_next _ (step_of_clk ha hm hag)).trans hrun⟩

/-- Settles O45: TICK_CYCLES − n counts are to go. -/
theorem deadlineIsReachedAfterTheMissingCounts : Obligations.DeadlineIsReachedAfterTheMissingCounts := by
  unfold Obligations.DeadlineIsReachedAfterTheMissingCounts
  intro s n rest ha hm hq hn hle hag
  exact run_of_counts ha hm hq hn (by omega) hag

/-! ## Steps 2 to 5 do what the commands do -/

/-- A draw takes the oldest answer of the input transducer already fixed (R312, log 4). -/
theorem drawInput_of_cons {s : State} {v : Sample} {vs : List Sample} (h : s.env.samples = v :: vs) :
    s.drawInput = (v, s.setEnv { s.env with samples := vs, trace := s.env.trace ++ [.input v] }) := by
  simp only [State.drawInput, h]
  rfl

/-- A poll takes the oldest answer of the inbound source already fixed (R312, log 4). -/
theorem drawInbound_of_cons {s : State} {o : Option Byte} {os : List (Option Byte)} (h : s.env.inbound = o :: os) :
    s.drawInbound = (o, s.setEnv { s.env with inbound := os, trace := s.env.trace ++ [.inbound o] }) := by
  simp only [State.drawInbound, h]
  rfl

/-- DEM_FEED_SAMPLE that completes is `feed_sample` and a response (R210). -/
theorem exec_demFeedSample_next {v : Sample} {s u : State} (h : exec (.demFeedSample v) s = .next u) :
    ∃ t, feedSample v s = .ok t ∧ u = t.emit (.response voidResponse) := by
  cases hf : feedSample v s with
  | error f => simp [exec, execDemFeedSample, hf, Except.map, respond] at h
  | ok t =>
    rw [exec_demFeedSample_ok hf] at h
    exact ⟨t, rfl, (Host.Outcome.next.inj h).symm⟩

/-- MOD_GET_SAMPLE that completes is `get_sample` and the sample as response (R177). -/
theorem exec_modGetSample_next {s u : State} (h : exec .modGetSample s = .next u) :
    ∃ t v, getSample s = .ok (t, v) ∧ u = t.emit (.response v) := by
  cases hg : getSample s with
  | error f => simp [exec, execModGetSample, hg, Except.map, respond] at h
  | ok p =>
    rw [exec_modGetSample_ok hg] at h
    exact ⟨p.1, p.2, rfl, (Host.Outcome.next.inj h).symm⟩

/-- Settles O38: `feed_sample` of the drawn sample, in the environment after the draw. -/
theorem tickFeedsTheDrawnSample : Obligations.TickFeedsTheDrawnSample := by
  unfold Obligations.TickFeedsTheDrawnSample
  intro s u v vs rest ha hm hq hag hvs he
  obtain ⟨t, ht, rfl⟩ := exec_demFeedSample_next he
  have hdraw := drawInput_of_cons (s := s.setAgenda rest) hvs
  have hfeed : feedSample (s.setAgenda rest).drawInput.1 (s.setAgenda rest).drawInput.2 =
      .ok (t.around s.seq { s.env with agenda := rest, samples := vs, trace := s.env.trace ++ [.input v] }) := by
    rw [hdraw]
    exact (feedSample_around v s s.seq _).trans (by rw [ht]; rfl)
  exact (step_of_seq ha hm hag).trans (Ticked.sampleFed (s := s.setAgenda rest) hq hfeed).seqStep_eq

/-- Settles O39: the waiting bit is DBIT, and with none nothing but STEP changes. -/
theorem tickDrainsAtMostOneBit : Obligations.TickDrainsAtMostOneBit := by
  unfold Obligations.TickDrainsAtMostOneBit
  intro s rest ha hm hq hag
  rw [step_of_seq ha hm hag]
  exact ⟨fun b hdv hb => (Ticked.bitDrained (s := s.setAgenda rest) hq hdv hb).seqStep_eq,
    fun hdv => (Ticked.noBit (s := s.setAgenda rest) hq hdv).seqStep_eq⟩

/-- Settles O40: no poll, a poll without a byte, and `add_byte` of the polled byte in the environment after the poll. -/
theorem tickEnqueuesOnlyWhenReady : Obligations.TickEnqueuesOnlyWhenReady := by
  unfold Obligations.TickEnqueuesOnlyWhenReady
  intro s rest ha hm hq hag
  rw [step_of_seq ha hm hag]
  refine ⟨fun hout => (Ticked.notPolled (s := s.setAgenda rest) hq hout).seqStep_eq, fun os hout hos => ?_,
    fun v os u hout hos he => ?_⟩
  · have hdraw := drawInbound_of_cons (s := s.setAgenda rest) hos
    rw [(Ticked.noByte (s := s.setAgenda rest) hq hout (by rw [hdraw])).seqStep_eq, hdraw]
    rfl
  · rw [exec_modAddByte] at he
    obtain rfl := Host.Outcome.next.inj he
    have hdraw := drawInbound_of_cons (s := s.setAgenda rest) hos
    have hadd : addByte v (s.setAgenda rest).drawInbound.2 = (addByte v s).around s.seq
        { s.env with agenda := rest, inbound := os, trace := s.env.trace ++ [.inbound (some v)] } := by
      rw [hdraw]
      exact addByte_around v s s.seq _
    rw [(Ticked.byteEnqueued (s := s.setAgenda rest) hq hout (by rw [hdraw])).seqStep_eq, hadd]
    rfl

/-- Settles O41: IDLE_LEVEL is 0, and the response MOD_GET_SAMPLE adds is the sample that step 5 writes. -/
theorem tickWritesOneOutputSample : Obligations.TickWritesOneOutputSample := by
  unfold Obligations.TickWritesOneOutputSample
  intro s rest ha hm hq hag
  rw [step_of_seq ha hm hag]
  refine ⟨fun hb => (Ticked.idleWritten (s := s.setAgenda rest) hq hb).seqStep_eq, fun u v hb he htrace => ?_⟩
  obtain ⟨t, w, hget, rfl⟩ := exec_modGetSample_next he
  obtain ⟨-, -, -, -, henv, -⟩ := getSample_frame hget
  obtain rfl : w = v := by simpa [henv] using htrace
  have hsample : getSample (s.setAgenda rest) = .ok (t.around s.seq { s.env with agenda := rest }, w) :=
    (getSample_around s s.seq _).trans (by rw [hget]; rfl)
  exact (Ticked.sampleWritten (s := s.setAgenda rest) hq hb hsample).seqStep_eq

/-! ## STEP after a step of the sequencer -/

/-- The step of the tick after this one (R260). -/
def TickStep.next : TickStep → TickStep
  | .startTimer => .input
  | .input => .drain
  | .drain => .enqueue
  | .enqueue => .output
  | .output => .deadline
  | .deadline => .startTimer

/-- The steps are numbered in their order, and the wait is the last (R260). -/
theorem TickStep.next_number (n : TickStep) :
    (n.number < 6 → n.next.number = n.number + 1) ∧ (n.number = 6 → n.next.number = 1) := by
  cases n <;> decide

/-- STEP moves on, or stays at the wait (R52, R260). -/
theorem Ticked.next_step {s t : State} (h : Ticked s t) :
    t.seq.step = s.seq.step.next ∨ (s.seq.step = .deadline ∧ t.seq.step = .deadline) := by
  cases h with
  | waited hq => exact .inr ⟨hq, hq⟩
  | timerStarted hq | sampleFed hq | bitDrained hq | noBit hq | byteEnqueued hq | noByte hq | notPolled hq
    | sampleWritten hq | idleWritten hq | tickEnded hq => rw [hq]; exact .inl rfl

/-- Each of steps 1 to 5 moves STEP on (R260). -/
theorem Ticked.step_advances {s t : State} (h : Ticked s t) (hq : s.seq.step ≠ .deadline) : t.seq.step = s.seq.step.next :=
  h.next_step.resolve_right fun hd => hq hd.1

/-- From an invariant state a step of the sequencer that the agenda orders completes (R57, R260). -/
theorem step_of_seq_completes {s : State} {rest : List Move} (h : s.Inv) (hm : s.mode = .scheduled)
    (hag : s.env.agenda = .seq :: rest) : ∃ t, step s = .next t ∧ t.Inv ∧ Ticked (s.setAgenda rest) t := by
  obtain ⟨t, ht, hinv⟩ := seqStep_keeps_inv (s := s.setAgenda rest) (h.setEnv _)
  exact ⟨t, (step_of_seq h.accepted hm hag).trans ht, hinv, ticked_of_seqStep ht⟩

/-- Settles O43. -/
theorem sequencerAdvancesOneStepAtATime : Obligations.SequencerAdvancesOneStepAtATime := by
  unfold Obligations.SequencerAdvancesOneStepAtATime
  intro s rest h hm hag
  obtain ⟨t, ht, -, htick⟩ := step_of_seq_completes h hm hag
  refine ⟨t, ht, ?_⟩
  obtain ⟨hless, hlast⟩ := s.seq.step.next_number
  rcases htick.next_step with hnext | ⟨hd, hd'⟩
  · rw [hnext]
    exact ⟨hless, fun k => .inr (hlast k)⟩
  · rw [State.setAgenda_seq] at hd
    rw [hd, hd']
    exact ⟨fun k => absurd k (by decide), fun _ => .inl rfl⟩

/-! ## What a step of SCHEDULED mode does, said once -/

/-- Only the agenda makes a move that is neither the sequencer's nor the clock's (R13, R313). -/
theorem scheduledMove_head {e : Env} {m : Move} (h : (scheduledMove e).1 = m) (hseq : m ≠ .seq) (hclk : m ≠ .clk) :
    e.agenda.head? = some m := by
  unfold scheduledMove at h
  split at h
  · next m' rest hag => rw [hag, ← h, List.head?_cons]
  · split at h
    · exact absurd h.symm hseq
    · exact absurd h.symm hclk

/-- Choosing the move takes the oldest one off the agenda. -/
theorem scheduledMove_agenda (e : Env) : (scheduledMove e).2.agenda = e.agenda.tail := by
  unfold scheduledMove
  split
  · next hag => rw [hag, List.tail_cons]
  · next hag => rw [hag, List.tail_nil]

/-- Choosing the move is no event. -/
theorem scheduledMove_trace (e : Env) : (scheduledMove e).2.trace = e.trace := by
  unfold scheduledMove
  split <;> rfl

/-- A step of SCHEDULED mode that answers a next state is a reset that the agenda orders, a step of the sequencer or a step of the
clock, in an environment that has its oldest move taken (R13, R107, R340). -/
theorem step_scheduled_next {s t : State} (hm : s.mode = .scheduled) (h : step s = .next t) :
    ∃ e : Env, e.agenda = s.env.agenda.tail ∧ e.trace = s.env.trace ∧
      ((s.env.agenda.head? = some .reset ∧ t = (s.setEnv e).resetEvent) ∨ Ticked (s.setEnv e) t ∨
        t = clkStep (s.setEnv e)) := by
  rw [step_scheduled (step_next_accepted h) hm] at h
  refine ⟨(scheduledMove s.env).2, scheduledMove_agenda _, scheduledMove_trace _, ?_⟩
  rcases performMove_next h with ⟨w, i, -, hc, -⟩ | ⟨hr, ht⟩ | ⟨-, -, hs⟩ | ⟨-, -, ht⟩ | ⟨-, hc, -⟩
  · rw [State.setEnv_mode, hm] at hc; cases hc
  · exact .inl ⟨scheduledMove_head hr (by decide) (by decide), ht⟩
  · exact .inr (.inl (ticked_of_seqStep hs))
  · exact .inr (.inr ht)
  · rw [State.setEnv_mode, hm] at hc; cases hc

/-! ## A run of SCHEDULED mode -/

/-- From an invariant state with no command offered, a step of SCHEDULED mode answers an invariant state of the same mode, with at
most one move gone from the agenda (R57, R319). -/
theorem step_scheduled_completes {s : State} (h : s.Inv) (hm : s.mode = .scheduled)
    (hno : ∀ w, .command w ∉ s.env.agenda) :
    ∃ t, step s = .next t ∧ t.Inv ∧ t.mode = .scheduled ∧ t.env.agenda = s.env.agenda.tail := by
  rcases step_keeps_inv h with ⟨q, hq⟩ | ⟨t, ht, hinv⟩
  · rw [step_scheduled h.accepted hm] at hq
    obtain ⟨w, hw, -⟩ := performMove_refused hq
    exact absurd (List.mem_of_head? (scheduledMove_head hw (by simp) (by simp))) (hno w)
  · refine ⟨t, ht, hinv, (configurationAndModeNeverChange s t ht).2.trans hm, ?_⟩
    obtain ⟨e, hag, -, ⟨-, rfl⟩ | htick | rfl⟩ := step_scheduled_next hm ht
    · exact hag
    · exact htick.agenda.trans hag
    · exact hag

/-- Settles O57, by induction on the number of steps: what is left of the agenda offers no command either. -/
theorem scheduledRunNeverStops : Obligations.ScheduledRunNeverStops := by
  unfold Obligations.ScheduledRunNeverStops
  intro s k h hm hno
  induction k generalizing s with
  | zero => exact ⟨s, rfl, h, hm⟩
  | succ k ih =>
    obtain ⟨t, ht, hinv, hmode, hag⟩ := step_scheduled_completes h hm hno
    rw [core_run_next k ht]
    exact ih t hinv hmode fun w hw => hno w (List.mem_of_mem_tail (hag ▸ hw))

/-! ## The events of a tick -/

/-- The events that the tick step of a state may add to the trace (R262 to R265, R270). -/
def State.StepEvents (s : State) (es : List Event) : Prop :=
  match s.seq.step with
  | .startTimer => es = []
  | .input => ∃ v, es = [.input v]
  | .drain => ∃ bits : List Bit, bits.length ≤ 1 ∧ es = bits.map .bit
  | .enqueue => ∃ answers : List (Option Byte), answers.length ≤ 1 ∧ (answers ≠ [] ↔ s.mod.outI = 0) ∧
      es = answers.map .inbound
  | .output => ∃ w, es = [.output w]
  | .deadline => es = []

/-- A step of the sequencer adds its own events to the trace, nothing else. -/
theorem Ticked.trace {s t : State} (h : Ticked s t) : ∃ es, t.env.trace = s.env.trace ++ es ∧ s.StepEvents es := by
  unfold State.StepEvents
  cases h with
  | timerStarted hq | tickEnded hq | waited hq => rw [hq]; exact ⟨[], (List.append_nil _).symm, rfl⟩
  | sampleFed hq hu =>
    obtain ⟨-, -, -, -, he⟩ := feedSample_frame hu
    rw [hq]
    exact ⟨[.input s.drawInput.1], by rw [State.goto_env, he, State.drawInput_trace], s.drawInput.1, rfl⟩
  | @bitDrained hq hdv b hb => rw [hq]; exact ⟨[.bit b], rfl, [b], le_refl 1, rfl⟩
  | noBit hq => rw [hq]; exact ⟨[], (List.append_nil _).symm, [], Nat.zero_le 1, rfl⟩
  | byteEnqueued hq hout =>
    rw [hq]
    exact ⟨[.inbound s.drawInbound.1], by rw [State.goto_env, addByte_env, State.drawInbound_trace],
      [s.drawInbound.1], le_refl 1, by simp [hout], rfl⟩
  | noByte hq hout =>
    rw [hq]
    exact ⟨[.inbound s.drawInbound.1], by rw [State.goto_env, State.drawInbound_trace],
      [s.drawInbound.1], le_refl 1, by simp [hout], rfl⟩
  | notPolled hq hout =>
    rw [hq]
    exact ⟨[], (List.append_nil _).symm, [], Nat.zero_le 1, by simp [hout], rfl⟩
  | @sampleWritten hq hb u v hu =>
    obtain ⟨-, -, -, -, he, -⟩ := getSample_frame hu
    rw [hq]
    exact ⟨[.output v], by rw [State.goto_env, State.emit_env, he], v, rfl⟩
  | idleWritten hq => rw [hq]; exact ⟨[.output Cfg.idleLevel], rfl, _, rfl⟩

/-- The read of step 2 puts one input ahead and the write of step 5 takes it back (R270). -/
theorem State.StepEvents.balance {s : State} {es : List Event} (h : s.StepEvents es) :
    es.countP Event.isInput + s.seq.step.inputsAhead = es.countP Event.isOutput + s.seq.step.next.inputsAhead := by
  unfold State.StepEvents at h
  cases hq : s.seq.step with
  | startTimer | deadline => rw [hq] at h; subst h; rfl
  | input | output => rw [hq] at h; obtain ⟨v, rfl⟩ := h; rfl
  | drain =>
    rw [hq] at h
    obtain ⟨bits, -, rfl⟩ := h
    simp [List.countP_map, Function.comp_def, Event.isInput, Event.isOutput, TickStep.next, TickStep.inputsAhead]
  | enqueue =>
    rw [hq] at h
    obtain ⟨answers, -, -, rfl⟩ := h
    simp [List.countP_map, Function.comp_def, Event.isInput, Event.isOutput, TickStep.next, TickStep.inputsAhead]

/-- A step of the sequencer keeps reads and writes in balance: a tick that waits or ends is in balance (R270). -/
theorem Ticked.keeps_balance {s t : State} (h : Ticked s t) (hb : s.ReadsMatchWrites) : t.ReadsMatchWrites := by
  have hahead : t.seq.step.inputsAhead = s.seq.step.next.inputsAhead := by
    rcases h.next_step with hnext | ⟨hd, hd'⟩
    · rw [hnext]
    · rw [hd, hd']; rfl
  obtain ⟨es, htrace, hes⟩ := h.trace
  have hbal := hes.balance
  unfold State.ReadsMatchWrites at hb ⊢
  rw [htrace, hahead, List.countP_append, List.countP_append]
  omega

/-- Settles O47: a clock step is no event and leaves STEP alone. -/
theorem readsAndWritesStayInBalance : Obligations.ReadsAndWritesStayInBalance := by
  unfold Obligations.ReadsAndWritesStayInBalance
  intro s t hm hno hb h
  obtain ⟨e, -, htrace, hstep⟩ := step_scheduled_next hm h
  have hb' : (s.setEnv e).ReadsMatchWrites := by
    unfold State.ReadsMatchWrites at hb ⊢
    rwa [State.setEnv_env, htrace]
  rcases hstep with ⟨hr, -⟩ | htick | rfl
  · exact absurd hr hno
  · exact htick.keeps_balance hb'
  · exact hb'

/-- Only steps 4 and 5 touch the modulator (R264, R265). -/
theorem Ticked.mod_kept {s t : State} (h : Ticked s t) (henq : s.seq.step ≠ .enqueue) (hout : s.seq.step ≠ .output) :
    t.mod = s.mod := by
  cases h with
  | timerStarted | bitDrained | noBit | tickEnded | waited => rfl
  | sampleFed _ hu =>
    obtain ⟨-, -, hmod, -⟩ := feedSample_frame hu
    simpa using hmod
  | byteEnqueued hq | noByte hq | notPolled hq => exact absurd hq henq
  | sampleWritten hq | idleWritten hq => exact absurd hq hout

/-- A step of the sequencer, ordered by the agenda, that is not the wait: STEP moves on and the events are the step's own. -/
structure WorkingStep (s : State) (rest : List Move) (t : State) (es : List Event) : Prop where
  step : step s = .next t
  inv : t.Inv
  mode : t.mode = .scheduled
  agenda : t.env.agenda = rest
  advances : t.seq.step = s.seq.step.next
  mod : s.seq.step ≠ .enqueue → s.seq.step ≠ .output → t.mod = s.mod
  trace : t.env.trace = s.env.trace ++ es
  events : s.StepEvents es

/-- From an invariant state each of steps 1 to 5 is such a step (R260). -/
theorem workingStep_of_seq {s : State} {rest : List Move} (h : s.Inv) (hm : s.mode = .scheduled)
    (hag : s.env.agenda = .seq :: rest) (hq : s.seq.step ≠ .deadline) : ∃ t es, WorkingStep s rest t es := by
  obtain ⟨t, ht, hinv, htick⟩ := step_of_seq_completes h hm hag
  obtain ⟨es, htrace, hes⟩ := htick.trace
  exact ⟨t, es, ht, hinv, (configurationAndModeNeverChange s t ht).2.trans hm, htick.agenda,
    htick.step_advances hq, htick.mod_kept, htrace, hes⟩

/-- Settles O46: the five working steps one after another, with the events of each. -/
theorem tickReadsOnceThenWritesOnce : Obligations.TickReadsOnceThenWritesOnce := by
  unfold Obligations.TickReadsOnceThenWritesOnce
  intro s rest h hm q1 hag
  obtain ⟨s1, e1, w1⟩ := workingStep_of_seq h hm hag (by simp [q1])
  have q2 : s1.seq.step = .input := by rw [w1.advances, q1]; rfl
  obtain ⟨s2, e2, w2⟩ := workingStep_of_seq w1.inv w1.mode w1.agenda (by simp [q2])
  have q3 : s2.seq.step = .drain := by rw [w2.advances, q2]; rfl
  obtain ⟨s3, e3, w3⟩ := workingStep_of_seq w2.inv w2.mode w2.agenda (by simp [q3])
  have q4 : s3.seq.step = .enqueue := by rw [w3.advances, q3]; rfl
  obtain ⟨s4, e4, w4⟩ := workingStep_of_seq w3.inv w3.mode w3.agenda (by simp [q4])
  have q5 : s4.seq.step = .output := by rw [w4.advances, q4]; rfl
  obtain ⟨s5, e5, w5⟩ := workingStep_of_seq w4.inv w4.mode w4.agenda (by simp [q5])
  have q6 : s5.seq.step = .deadline := by rw [w5.advances, q5]; rfl
  have hmod : s3.mod = s.mod := by
    rw [w3.mod (by simp [q3]) (by simp [q3]), w2.mod (by simp [q2]) (by simp [q2]), w1.mod (by simp [q1]) (by simp [q1])]
  obtain rfl : e1 = [] := by simpa [State.StepEvents, q1] using w1.events
  obtain ⟨v, rfl⟩ : ∃ v, e2 = [.input v] := by simpa [State.StepEvents, q2] using w2.events
  obtain ⟨bits, hbits, rfl⟩ : ∃ bits : List Bit, bits.length ≤ 1 ∧ e3 = bits.map .bit := by
    simpa only [State.StepEvents, q3] using w3.events
  obtain ⟨answers, hans, hpoll, rfl⟩ : ∃ answers : List (Option Byte), answers.length ≤ 1 ∧
      (answers ≠ [] ↔ s3.mod.outI = 0) ∧ e4 = answers.map .inbound := by
    simpa only [State.StepEvents, q4] using w4.events
  obtain ⟨w, rfl⟩ : ∃ w, e5 = [.output w] := by simpa [State.StepEvents, q5] using w5.events
  refine ⟨s5, v, w, bits, answers, ?_, q6, hbits, hans, by rw [hpoll, hmod], ?_⟩
  · rw [core_run_next _ w1.step, core_run_next _ w2.step, core_run_next _ w3.step, core_run_next _ w4.step,
      core_run_next _ w5.step]
    rfl
  · simp [w5.trace, w4.trace, w3.trace, w2.trace, w1.trace]

/-! ## The invariants of SCHEDULED mode -/

/-- An accepted configuration has room for a payload bit (R10). -/
theorem nPre_lt_nBits {c : Cfg} (h : c.Accepted) : c.nPre < c.nBits := by
  obtain ⟨⟨-, hbits, -, -, hpre, -⟩, -⟩ := h
  omega

/-- The reset state of SCHEDULED mode holds no bit and no full buffer (R271, R341). -/
theorem State.resetOf_scheduledInv {c : Cfg} {m : Mode} (h : c.Accepted) (hm : m = .scheduled) :
    (State.resetOf c m).ScheduledInv where
  scheduled := hm
  bitDrained := fun hdv => nomatch hdv
  frameStarts := fun _ hb => absurd hb (nPre_lt_nBits h).ne
  faultKinds := .inl rfl

/-- Settles O58. -/
theorem resetStateMeetsTheScheduledInvariant : Obligations.ResetStateMeetsTheScheduledInvariant :=
  fun _ h => State.resetOf_scheduledInv h rfl

/-- The environment is no part of the invariant. -/
theorem State.ScheduledInv.setEnv {s : State} (h : s.ScheduledInv) (e : Env) : (s.setEnv e).ScheduledInv :=
  ⟨h.scheduled, h.bitDrained, h.frameStarts, h.faultKinds⟩

/-- CYC is no part of the invariant. -/
theorem State.ScheduledInv.clkStep {s : State} (h : s.ScheduledInv) : (clkStep s).ScheduledInv :=
  ⟨h.scheduled, h.bitDrained, h.frameStarts, h.faultKinds⟩

/-- The cursors after a sample: both back at their starts after the last one of a frame, else the read cursor moves on (R177). -/
theorem advanceOut_cursors (s : State) :
    ((advanceOut s).mod.outI = 0 ∧ (advanceOut s).mod.buffI = s.cfg.nPre) ∨
    ((advanceOut s).mod.outI = s.mod.outI + 1 ∧ (advanceOut s).mod.buffI = s.mod.buffI) := by
  by_cases hlast : s.mod.outI + 1 = s.cfg.lFilt
  · rw [advanceOut_last hlast]
    exact .inl ⟨rfl, rfl⟩
  · rw [advanceOut_inside hlast]
    exact .inr ⟨rfl, rfl⟩

/-- The cursors after `get_sample` of a complete frame (R177). -/
theorem getSample_cursors {s u : State} {v : Sample} (h : s.mod.Inv s.cfg) (hb : s.mod.buffI = s.cfg.nBits)
    (hu : getSample s = .ok (u, v)) :
    (u.mod.outI = 0 ∧ u.mod.buffI = s.cfg.nPre) ∨ (u.mod.outI = s.mod.outI + 1 ∧ u.mod.buffI = s.mod.buffI) := by
  obtain ⟨xs, w, -, -, hget⟩ := getSample_valid h hb
  rw [hget] at hu
  cases hu
  exact advanceOut_cursors (s.setMod _)

/-- Only steps 2 and 3 touch the demodulator (R262, R263). -/
theorem Ticked.dem_kept {s t : State} (h : Ticked s t) (hin : s.seq.step ≠ .input) (hdrain : s.seq.step ≠ .drain) :
    t.dem = s.dem := by
  cases h with
  | timerStarted | notPolled | idleWritten | tickEnded | waited => rfl
  | byteEnqueued | noByte => simp
  | sampleWritten _ _ hu =>
    obtain ⟨-, -, hdem, -⟩ := getSample_frame hu
    simpa using hdem
  | sampleFed hq => exact absurd hq hin
  | bitDrained hq | noBit hq => exact absurd hq hdrain

/-- Step 3 leaves no bit waiting (R263). -/
theorem Ticked.drain_clears {s t : State} (h : Ticked s t) (hq : s.seq.step = .drain) : t.dem.dv = false := by
  cases h with
  | bitDrained => rfl
  | noBit _ hdv => exact hdv
  | timerStarted k | sampleFed k | byteEnqueued k | noByte k | notPolled k | sampleWritten k | idleWritten k | tickEnded k
    | waited k => exact absurd (k.symm.trans hq) (by decide)

/-- After step 5 a frame streams on, or the buffer has room again (R265). -/
theorem Ticked.output_frees {s t : State} (h : Ticked s t) (hi : s.Inv) (hq : s.seq.step = .output)
    (hout : t.mod.outI = 0) : t.mod.buffI ≠ t.cfg.nBits := by
  cases h with
  | sampleWritten _ hb hu =>
    obtain ⟨hc, -⟩ := getSample_frame hu
    rcases getSample_cursors hi.modInv hb hu with ⟨-, hpre⟩ | ⟨hnext, -⟩
    · simpa [hpre, hc] using (nPre_lt_nBits hi.accepted).ne
    · rw [State.goto_mod, State.emit_mod, hnext] at hout
      cases hout
  | idleWritten _ hb => exact hb
  | timerStarted k | sampleFed k | bitDrained k | noBit k | byteEnqueued k | noByte k | notPolled k | tickEnded k
    | waited k => exact absurd (k.symm.trans hq) (by decide)

/-- A bit set in step 2 is drained in step 3 of the same tick (R271 (1)). -/
theorem Ticked.keeps_bitDrained {s t : State} (h : Ticked s t) (hs : s.ScheduledInv) (hdv : t.dem.dv = true) :
    t.seq.step = .drain := by
  by_cases hin : s.seq.step = .input
  · rw [h.step_advances (by simp [hin]), hin]
    rfl
  · by_cases hdrain : s.seq.step = .drain
    · rw [h.drain_clears hdrain] at hdv
      cases hdv
    · rw [h.dem_kept hin hdrain] at hdv
      exact absurd (hs.bitDrained hdv) hdrain

/-- A buffer that step 4 fills starts to stream in step 5 of the same tick (R271). -/
theorem Ticked.keeps_frameStarts {s t : State} (h : Ticked s t) (hi : s.Inv) (hs : s.ScheduledInv)
    (hout : t.mod.outI = 0) (hb : t.mod.buffI = t.cfg.nBits) : t.seq.step = .output := by
  by_cases henq : s.seq.step = .enqueue
  · rw [h.step_advances (by simp [henq]), henq]
    rfl
  · by_cases hoq : s.seq.step = .output
    · exact absurd hb (h.output_frees hi hoq hout)
    · rw [h.mod_kept henq hoq] at hout hb
      rw [(seqStep_next_frame h.seqStep_eq).1] at hb
      exact absurd (hs.frameStarts hout hb) hoq

/-- Step 2 finds no bit waiting, so it raises nothing; step 4 may raise BUFFER_FULL, and no other step a fault (R271). -/
theorem Ticked.fault_of_scheduledInv {s t : State} (h : Ticked s t) (hs : s.ScheduledInv) :
    t.fault = s.fault ∨ (s.seq.step = .enqueue ∧ t.fault = .bufferFull) := by
  rcases seqStep_next_fault h.seqStep_eq with k | k | ⟨hq, hdv, -⟩
  · exact .inl k
  · exact .inr k
  · exact absurd (hq.symm.trans (hs.bitDrained hdv)) (by decide)

/-- A step of the sequencer keeps the invariant of SCHEDULED mode (R271). -/
theorem Ticked.keeps_scheduledInv {s t : State} (h : Ticked s t) (hi : s.Inv) (hs : s.ScheduledInv) : t.ScheduledInv where
  scheduled := (seqStep_next_frame h.seqStep_eq).2.trans hs.scheduled
  bitDrained := h.keeps_bitDrained hs
  frameStarts := h.keeps_frameStarts hi hs
  faultKinds := by
    rcases h.fault_of_scheduledInv hs with k | ⟨-, k⟩
    · exact k ▸ hs.faultKinds
    · exact .inr k

/-- Settles O59: a reset leaves the reset state, the sequencer's step is one of the tick's, and the clock writes CYC only. -/
theorem everyStepKeepsTheScheduledInvariant : Obligations.EveryStepKeepsTheScheduledInvariant := by
  unfold Obligations.EveryStepKeepsTheScheduledInvariant
  intro s t hi hs h
  obtain ⟨e, -, -, ⟨-, rfl⟩ | htick | rfl⟩ := step_scheduled_next hs.scheduled h
  · exact (State.resetOf_scheduledInv hi.accepted hs.scheduled).setEnv e
  · exact htick.keeps_scheduledInv (hi.setEnv e) (hs.setEnv e)
  · exact (hs.setEnv e).clkStep

/-! ## Whole bytes -/

/-- The invariant of a whole-byte payload is about CFG, BUFF_I and FAULT alone. -/
theorem State.WholeBytesInv.of_eq {s t : State} (h : s.WholeBytesInv) (hc : t.cfg = s.cfg)
    (hb : t.mod.buffI = s.mod.buffI) (hf : t.fault = s.fault) : t.WholeBytesInv :=
  ⟨hc ▸ h.payload, by rw [hb, hc]; exact h.wholeBytes, hf ▸ h.noFault⟩

/-- Where the modulator is ready at step 4, a whole byte fits: the buffer is not full, and what is free of it is whole bytes
(R271). -/
theorem byte_fits {s : State} (hi : s.Inv) (hs : s.ScheduledInv) (hw : s.WholeBytesInv) (hq : s.seq.step = .enqueue)
    (hout : s.mod.outI = 0) : s.mod.buffI + 8 ≤ s.cfg.nBits := by
  have hroom : s.mod.buffI ≠ s.cfg.nBits := fun hb =>
    absurd (hq.symm.trans (hs.frameStarts hout hb)) (by decide)
  have hlow := hi.modInv.buffLow
  have hhigh := hi.modInv.buffHigh
  have hpayload := hw.payload
  have hbytes := hw.wholeBytes
  omega

/-- A step of the sequencer splits no byte and raises no fault where the payload is whole bytes (R181, R271). -/
theorem Ticked.keeps_wholeBytesInv {s t : State} (h : Ticked s t) (hi : s.Inv) (hs : s.ScheduledInv)
    (hw : s.WholeBytesInv) : t.WholeBytesInv := by
  have hc := (seqStep_next_frame h.seqStep_eq).1
  have hf (hq : s.seq.step ≠ .enqueue) : t.fault = s.fault :=
    (h.fault_of_scheduledInv hs).resolve_right fun k => hq k.1
  cases h with
  | @byteEnqueued hq hout v hv =>
    obtain ⟨hbuff, hfault⟩ := addByte_room v (s := s.drawInbound.2) (by simpa using byte_fits hi hs hw hq hout)
    have hlow := hi.modInv.buffLow
    have hbytes := hw.wholeBytes
    refine ⟨by rw [hc]; exact hw.payload, ?_, by simpa [hfault] using hw.noFault⟩
    rw [hc, State.goto_mod, hbuff, State.drawInbound_mod]
    omega
  | noByte => exact hw.of_eq hc (by simp) (by simp)
  | notPolled | timerStarted | bitDrained | noBit | idleWritten | tickEnded | waited => exact hw.of_eq rfl rfl rfl
  | sampleFed hq hu =>
    obtain ⟨-, -, hmod, -⟩ := feedSample_frame hu
    exact hw.of_eq hc (by simp [hmod]) (hf (by simp [hq]))
  | sampleWritten hq hb hu =>
    rcases getSample_cursors hi.modInv hb hu with ⟨-, hpre⟩ | ⟨-, hkept⟩
    · exact ⟨hc ▸ hw.payload, by rw [State.goto_mod, State.emit_mod, hpre, hc, Nat.sub_self],
        (hf (by simp [hq])).trans hw.noFault⟩
    · exact hw.of_eq hc hkept (hf (by simp [hq]))

/-- Settles O60. -/
theorem wholeBytePayloadNeverFaults : Obligations.WholeBytePayloadNeverFaults := by
  unfold Obligations.WholeBytePayloadNeverFaults
  intro s t hi hs hw h
  obtain ⟨e, -, -, ⟨-, rfl⟩ | htick | rfl⟩ := step_scheduled_next hs.scheduled h
  · exact ⟨hw.payload, by simp [ModState.resetOf], rfl⟩
  · exact htick.keeps_wholeBytesInv (hi.setEnv e) (hs.setEnv e) (hw.of_eq rfl rfl rfl)
  · exact hw.of_eq rfl rfl rfl

/-! ## Time -/

namespace State

/-- A draw of an input sample does not look at the sequencer state (R312). -/
theorem drawInput_of_setSeq (s : State) (q : SeqState) :
    (s.setSeq q).drawInput = (s.drawInput.1, s.drawInput.2.setSeq q) := by
  simp only [drawInput, setSeq_env]
  split <;> rfl

/-- A poll of the inbound source does not look at the sequencer state (R312). -/
theorem drawInbound_of_setSeq (s : State) (q : SeqState) :
    (s.setSeq q).drawInbound = (s.drawInbound.1, s.drawInbound.2.setSeq q) := by
  simp only [drawInbound, setSeq_env]
  split <;> rfl

/-- The timer is all that two sequencer states with one STEP can differ in. -/
theorem goto_timeless (s : State) (q : SeqState) (n : TickStep) :
    ((s.setSeq q).goto n).timeless = (s.goto n).timeless := rfl

end State

/-- `feed_sample` that completes does the same in any sequencer state (R210). -/
theorem feedSample_of_setSeq {s u : State} {v : Sample} (q : SeqState) (h : feedSample v s = .ok u) :
    feedSample v (s.setSeq q) = .ok (u.setSeq q) := by
  obtain ⟨-, -, -, -, he⟩ := feedSample_frame h
  refine (feedSample_around v s q s.env).trans ?_
  rw [h, ← he]
  rfl

/-- `get_sample` that completes does the same in any sequencer state (R177). -/
theorem getSample_of_setSeq {s u : State} {v : Sample} (q : SeqState) (h : getSample s = .ok (u, v)) :
    getSample (s.setSeq q) = .ok (u.setSeq q, v) := by
  obtain ⟨-, -, -, -, he, -⟩ := getSample_frame h
  refine (getSample_around s q s.env).trans ?_
  rw [h, ← he]
  rfl

/-- `add_byte` does the same in any sequencer state (R174). -/
theorem addByte_of_setSeq (v : Byte) (s : State) (q : SeqState) :
    addByte v (s.setSeq q) = (addByte v s).setSeq q := by
  refine (addByte_around v s q s.env).trans ?_
  rw [← addByte_env v s]
  rfl

/-- Each of steps 1 to 5 goes the same way in a sequencer state with the same STEP, whatever the timer holds (R275). -/
theorem Ticked.of_setSeq {s t : State} (h : Ticked s t) (hwait : s.seq.step ≠ .deadline) {q : SeqState}
    (hstep : q.step = s.seq.step) : ∃ u, Ticked (s.setSeq q) u ∧ u.timeless = t.timeless := by
  cases h with
  | timerStarted hq => exact ⟨_, .timerStarted (hstep.trans hq), rfl⟩
  | sampleFed hq hu =>
    refine ⟨_, .sampleFed (hstep.trans hq) ?_, State.goto_timeless _ q .drain⟩
    rw [State.drawInput_of_setSeq]
    exact feedSample_of_setSeq q hu
  | bitDrained hq hdv hb => exact ⟨_, .bitDrained (s := s.setSeq q) (hstep.trans hq) hdv hb, rfl⟩
  | noBit hq hdv => exact ⟨_, .noBit (s := s.setSeq q) (hstep.trans hq) hdv, rfl⟩
  | byteEnqueued hq hout hv =>
    refine ⟨_, .byteEnqueued (s := s.setSeq q) (hstep.trans hq) hout (by rw [State.drawInbound_of_setSeq]; exact hv), ?_⟩
    rw [State.drawInbound_of_setSeq, addByte_of_setSeq, State.goto_timeless]
  | noByte hq hout hv =>
    refine ⟨_, .noByte (hstep.trans hq) hout (by rw [State.drawInbound_of_setSeq]; exact hv), ?_⟩
    rw [State.drawInbound_of_setSeq, State.goto_timeless]
  | notPolled hq hout => exact ⟨_, .notPolled (hstep.trans hq) hout, rfl⟩
  | sampleWritten hq hb hu => exact ⟨_, .sampleWritten (s := s.setSeq q) (hstep.trans hq) hb (getSample_of_setSeq q hu), rfl⟩
  | idleWritten hq hb => exact ⟨_, .idleWritten (hstep.trans hq) hb, rfl⟩
  | tickEnded hq | waited hq => exact absurd hq hwait

/-- Settles O48. -/
theorem timeDoesNotAffectTheData : Obligations.TimeDoesNotAffectTheData := by
  unfold Obligations.TimeDoesNotAffectTheData
  intro s t c rest hm hq hag h
  have ha := step_next_accepted h
  rw [step_of_seq ha hm hag] at h
  obtain ⟨u, hu, htime⟩ := (ticked_of_seqStep h).of_setSeq hq (q := { s.seq with cyc := c }) rfl
  exact ⟨u, (step_of_seq (s := s.setSeq { s.seq with cyc := c }) ha hm hag).trans hu.seqStep_eq, htime⟩

end Sys2Proof.Machine
end

section
/-! PROOFS. Family 60_exceptions.md. The sample fed while a bit waits (R303), and the one fault kind that each command raises, on
its own condition (R306). -/

namespace Sys2Proof.Machine

/-- Settles O30. -/
theorem feedSampleIsDroppedWhileABitWaits : Obligations.FeedSampleIsDroppedWhileABitWaits := by
  unfold Obligations.FeedSampleIsDroppedWhileABitWaits
  exact fun v _ hdv => exec_demFeedSample_ok (feedSample_dropped v hdv)

/-- A DEM_GET_BIT that completes is `get_bit` and the response that carries its bit. -/
theorem exec_demGetBit_next {s u : State} (h : exec .demGetBit s = .next u) :
    ∃ t b, getBit s = .ok (t, b) ∧ u = t.emit (.response (boolResponse b)) := by
  cases hg : getBit s with
  | error f => simp [exec, execDemGetBit, hg, Except.map, respond] at h
  | ok p =>
    rw [exec_demGetBit_ok hg] at h
    exact ⟨p.1, p.2, rfl, (Host.Outcome.next.inj h).symm⟩

/-- `add_bit` changes FAULT on a full buffer only, and then to BUFFER_FULL (R173, R301). -/
theorem addBit_fault_changed {b : Bit} {s : State} (h : (addBit b s).fault ≠ s.fault) :
    s.mod.buffI = s.cfg.nBits ∧ (addBit b s).fault = .bufferFull := by
  refine ⟨?_, (addBit_fault b s).resolve_left h⟩
  by_contra hroom
  exact h (by rw [addBit_room b hroom, State.setMod_fault])

/-- `add_byte` changes FAULT only where the byte does not fit whole, and then to BUFFER_FULL (R174). -/
theorem addByte_fault_changed {v : Byte} {s : State} (h : (addByte v s).fault ≠ s.fault) :
    s.cfg.nBits < s.mod.buffI + 8 ∧ (addByte v s).fault = .bufferFull :=
  ⟨Nat.lt_of_not_le fun hroom => h (addByte_room v hroom).2, (addByte_fault v s).resolve_left h⟩

/-- Settles O51: each operation leaves FAULT or raises its own kind on its own condition, and a response is no fault. -/
theorem commandRaisesOnlyItsOwnFault : Obligations.CommandRaisesOnlyItsOwnFault := by
  unfold Obligations.CommandRaisesOnlyItsOwnFault
  intro i s t h hne
  cases i with
  | modAddBit b =>
    rw [exec_modAddBit, Host.Outcome.next.injEq] at h
    subst h
    rw [State.emit_fault] at hne ⊢
    exact addBit_fault_changed hne
  | modAddByte v =>
    rw [exec_modAddByte, Host.Outcome.next.injEq] at h
    subst h
    rw [State.emit_fault] at hne ⊢
    exact fun _ => addByte_fault_changed hne
  | modGetSample =>
    obtain ⟨u, v, hu, rfl⟩ := exec_modGetSample_next h
    exact (getSample_fault hu).resolve_left fun hkept => hne hkept.2
  | demFeedSample v =>
    obtain ⟨u, hu, rfl⟩ := exec_demFeedSample_next h
    exact (feedSample_fault hu).resolve_right fun hkept => hne hkept.2
  | demGetBit =>
    obtain ⟨u, b, hu, rfl⟩ := exec_demGetBit_next h
    exact (getBit_fault hu).resolve_left fun hkept => hne hkept.2
  | modIsRfd | modIsDv | demIsDa | rdFault | rdDetpwr =>
    cases h
    exact hne rfl

end Sys2Proof.Machine
end

section
/-! PROOFS. Family 70_reset_and_hazards.md. The reset value of every register and buffer (R341), with the preamble that reset loads
into MAP (R342). -/

namespace Sys2Proof.Machine

/-- A well-formed configuration's preamble fits MAP (R10); the bound of R133 on the buffers plays no part in it. -/
theorem nPre_le_nBits_of_wellFormed {c : Cfg} (h : c.WellFormed) : c.nPre ≤ c.nBits := by
  obtain ⟨-, -, -, -, hpre, -⟩ := h
  omega

/-- MAP's preamble elements after reset, by level and mapping mode (R170, R171, R342). -/
theorem ModState.resetOf_map_read_slot {c : Cfg} (h : c.nPre ≤ c.nBits) {j k : Nat} (hj : j < c.nPre) (hk : k < c.nSpb) :
    Buffer.read (ModState.resetOf c).map (j * c.nSpb + k) =
      some (if c.mapMode = .hold ∨ k = 0 then (if preambleBit c j then c.levelHigh else c.levelLow) else 0) := by
  rw [← slotSample_eq]
  exact preambleMap_read_slot c h hj hk

/-- FILT after reset holds no value (R341). -/
theorem ModState.resetOf_filt_read (c : Cfg) (i : Nat) : Buffer.read (ModState.resetOf c).filt i = none :=
  Buffer.read_noValue _ i

/-- WIN, Y and Z after reset hold no value (R341). -/
theorem DemState.resetOf_read (c : Cfg) (i : Nat) :
    Buffer.read (DemState.resetOf c).win i = none ∧ Buffer.read (DemState.resetOf c).y i = none ∧
      Buffer.read (DemState.resetOf c).z i = none :=
  ⟨Buffer.read_noValue _ i, Buffer.read_noValue _ i, Buffer.read_noValue _ i⟩

/-- Settles O11: the registers are the fields of the reset state; MAP is the preamble load, which fits because the
configuration is well formed, and every other buffer is one without values. -/
theorem resetLeavesTheResetValues : Obligations.ResetLeavesTheResetValues := by
  unfold Obligations.ResetLeavesTheResetValues
  intro c m hw
  have hfits := nPre_le_nBits_of_wellFormed hw
  refine ⟨rfl, rfl, rfl, rfl, (faultWord_eq_zero_iff _).mpr rfl, rfl, rfl, rfl, rfl, rfl, ?slots, ?rest, ?empty,
    ?mapSize, ?filtSize, ?winSize, ?ySize, ?zSize⟩
  case slots => exact fun j k hj hk => ModState.resetOf_map_read_slot hfits hj hk
  case rest => exact fun i hi => preambleMap_read_rest c hfits hi
  case empty => exact fun i => ⟨ModState.resetOf_filt_read c i, DemState.resetOf_read c i⟩
  case mapSize => exact preambleMap_length c hfits
  case filtSize => exact Buffer.length_noValue _
  case winSize => exact Buffer.length_noValue _
  case ySize => exact Buffer.length_noValue _
  case zSize => exact Buffer.length_noValue _

end Sys2Proof.Machine
end

section
/-! PROOFS. Family other. The encoder and the decoder are inverse to each other (30_encoding.md R100 to R106), a printed line
assembles to its command (R108), and a reset asserted at any point (70_reset_and_hazards.md R340, R344). -/

namespace Sys2Proof

/-! ## Decoding and encoding are inverse -/

/-- Settles O1: the decoder inverts the encoder, and every command is well formed. -/
theorem decodeOfEncodeIsTheCommand : Obligations.DecodeOfEncodeIsTheCommand :=
  fun i _ => decode_encode i

/-- The OP field of a word of format F32 (R100). -/
theorem opField_encodeF32 (op : Byte) (data : BitVec 16) : opField (encodeF32 op data) = op := by
  unfold opField encodeF32
  ext j hj
  have hdata : data.getLsbD (24 + j) = false := BitVec.getLsbD_of_ge data (24 + j) (by omega)
  simp [hj, hdata, show j < 32 by omega, show 24 + j < 32 by omega, ← BitVec.getLsbD_eq_getElem]

/-- The RSV field of a word of format F32 (R100). -/
theorem rsvField_encodeF32 (op : Byte) (data : BitVec 16) : rsvField (encodeF32 op data) = 0 := by
  unfold rsvField encodeF32
  ext j hj
  simp [hj, show 16 + j < 24 by omega, ← BitVec.getLsbD_eq_getElem]

/-- A word is determined by its three fields (R100). -/
theorem word_ext {v w : Word} (hop : opField v = opField w) (hrsv : rsvField v = rsvField w)
    (hdata : dataField v = dataField w) : v = w := by
  simp only [opField, rsvField, dataField, ← BitVec.toNat_inj, BitVec.extractLsb'_toNat, Nat.shiftRight_eq_div_pow] at *
  omega

/-- A word whose RSV field is zero is its OP and DATA fields in format F32 (R100). -/
theorem encodeF32_fields {w : Word} (h : rsvField w = 0) : encodeF32 (opField w) (dataField w) = w :=
  word_ext (opField_encodeF32 _ _) ((rsvField_encodeF32 _ _).trans h.symm) (dataField_encodeF32 _ _)

/-- A bit operand's DATA field is DATA[0] of the word it was read from (R102). -/
theorem bitData_bitOperand (w : Word) : bitData (bitOperand w) = dataField w &&& 1 := by
  have hlow : dataField w &&& 1 = (BitVec.ofBool (bitOperand w)).setWidth 16 := BitVec.and_one_eq_setWidth_ofBool_getLsbD
  rw [hlow, bitData]
  cases bitOperand w <;> rfl

/-- A byte operand's DATA field is DATA[7:0] of the word it was read from (R102). -/
theorem byteData_byteOperand (w : Word) : byteData (byteOperand w) = dataField w &&& 0xFF := by
  ext j hj
  have hmask : (0xFF#16)[j] = decide (j < 8) := by revert j; decide
  simp [byteData, byteOperand, hmask, hj, BitVec.getLsbD_eq_getElem, Bool.and_comm]

/-- A row builds a command of its own OP (R101). -/
theorem opNumber_build : ∀ r ∈ opcodeTable, ∀ w, opNumber (r.build w) = opField r.pattern := by
  intro r hr w
  fin_cases hr <;> rfl

/-- A row builds a command whose DATA field is the word's, without the bits the row fixes (R102). -/
theorem dataOf_build : ∀ r ∈ opcodeTable, ∀ w, dataOf (r.build w) = dataField w &&& ~~~ dataField r.mask := by
  have hfixed (w : Word) : (0 : BitVec 16) = dataField w &&& ~~~ 0xFFFF := BitVec.and_zero.symm
  have hfree (w : Word) : dataField w = dataField w &&& ~~~ 0 := BitVec.and_allOnes.symm
  simp only [opcodeTable, List.forall_mem_cons]
  exact ⟨bitData_bitOperand, byteData_byteOperand, hfixed, hfixed, hfixed, hfree, hfixed, hfixed, hfixed, hfixed,
    List.forall_mem_nil _⟩

/-- A word of a row has the OP of the row's match (R103). -/
theorem opField_of_row {r : OpcodeRow} {w : Word} (hr : r ∈ opcodeTable) (hw : w &&& r.mask = r.pattern) :
    opField w = opField r.pattern := by
  obtain ⟨⟨hmask, -⟩, -⟩ := opcodeTable_fields r hr
  have hfield : opField w &&& opField r.mask = opField r.pattern := field_of_row hw 24 8
  rwa [hmask, BitVec.and_allOnes] at hfield

/-- A vector with no bit under a mask has all of them outside it. -/
theorem and_not_of_and_eq_zero {n : Nat} {d m : BitVec n} (h : d &&& m = 0#n) : d &&& ~~~ m = d := by
  have hsplit : d &&& m ||| d &&& ~~~ m = d := by
    rw [← BitVec.and_or_distrib_left, BitVec.or_not_self, BitVec.and_allOnes]
  rwa [h, BitVec.zero_or] at hsplit

/-- The command a row builds of a word it matches encodes to that word. -/
theorem encode_build {r : OpcodeRow} {w : Word} (hr : r ∈ opcodeTable) (hw : w &&& r.mask = r.pattern) :
    encode (r.build w) = w := by
  obtain ⟨-, hrsv, hdata⟩ := fields_of_row hr hw
  rw [encode, opNumber_build r hr, dataOf_build r hr, ← opField_of_row hr hw, and_not_of_and_eq_zero hdata,
    encodeF32_fields hrsv]

/-- Settles O2: the word is the encoding of what its row builds of it, and so decodes to that. -/
theorem encodeOfDecodeIsTheWord : Obligations.EncodeOfDecodeIsTheWord := by
  unfold Obligations.EncodeOfDecodeIsTheWord
  intro w i h
  obtain ⟨r, hr, hmatch⟩ := row_of_decode h
  have hw : encode (r.build w) = w := encode_build hr (by simpa [OpcodeRow.matchesWord] using hmatch)
  have hi : i = r.build w := Except.ok.inj (h.symm.trans (decode_of_encode_eq hw))
  rw [hi, hw]

/-! ## The words of a printed line -/

/-- Text that neither ends a word nor starts a comment. -/
def PlainText (cs : List Char) : Prop := ∀ c ∈ cs, c.isWhitespace = false ∧ c ≠ ';'

/-- A line without `;` has no comment. -/
theorem stripComment_eq_self {cs : List Char} (h : ∀ c ∈ cs, c ≠ ';') : stripComment cs = cs := by
  induction cs with
  | nil => rfl
  | cons c cs ih =>
    obtain ⟨hc, hcs⟩ := List.forall_mem_cons.mp h
    rw [stripComment, if_neg hc, ih hcs]

/-- Plain text is read into the current word. -/
theorem tokensFrom_append_of_plainText {cs : List Char} (h : PlainText cs) (cur rest : List Char) :
    tokensFrom cur (cs ++ rest) = tokensFrom (cur ++ cs) rest := by
  induction cs generalizing cur with
  | nil => rw [List.nil_append, List.append_nil]
  | cons c cs ih =>
    obtain ⟨⟨hc, -⟩, hcs⟩ := List.forall_mem_cons.mp h
    rw [List.cons_append, tokensFrom, hc, if_neg Bool.false_ne_true, ih hcs, List.append_assoc, List.singleton_append]

/-- Plain text is one word, or none where it is empty. -/
theorem tokensFrom_of_plainText {cs : List Char} (h : PlainText cs) : tokensFrom [] cs = endToken cs := by
  have hread := tokensFrom_append_of_plainText h [] []
  rwa [List.append_nil, List.nil_append] at hread

/-- A space ends a word. -/
theorem tokensFrom_space (cur rest : List Char) :
    tokensFrom cur (' ' :: rest) = endToken cur ++ tokensFrom [] rest := rfl

/-- A word that has characters ends as one. -/
theorem endToken_of_ne_nil {cs : List Char} (h : cs ≠ []) : endToken cs = [cs] := if_neg h

theorem mnemonicOf_plainText (i : Instr) : PlainText (mnemonicOf i).toList := by
  cases i <;> simp [PlainText, mnemonicOf]

theorem endToken_mnemonicOf (i : Instr) : endToken (mnemonicOf i).toList = [(mnemonicOf i).toList] :=
  endToken_of_ne_nil (by cases i <;> simp [mnemonicOf])

theorem hexPattern_plainText (digits n : Nat) : PlainText (hexPattern digits n) := by
  intro c hc
  simp only [hexPattern, List.mem_cons, List.mem_map] at hc
  rcases hc with rfl | rfl | ⟨k, -, rfl⟩
  · decide
  · decide
  · exact hexChar_plain _ (Nat.mod_lt _ (by decide))

theorem operandText_plainText (i : Instr) : PlainText (operandText i) := by
  cases i with
  | modAddBit b => cases b <;> simp [PlainText, operandText]
  | modAddByte v => exact hexPattern_plainText 2 v.toNat
  | demFeedSample v => exact hexPattern_plainText 4 v.toNat
  | modIsRfd | modIsDv | modGetSample | demIsDa | demGetBit | rdFault | rdDetpwr => exact List.forall_mem_nil _

/-- The words of a printed line: the mnemonic, and the operand if there is one. -/
theorem tokens_printLine (i : Instr) :
    tokensFrom [] (stripComment (printLine i)) = (mnemonicOf i).toList :: endToken (operandText i) := by
  have hm := mnemonicOf_plainText i
  have ho := operandText_plainText i
  rw [printLine]
  split
  · next hop =>
    rw [stripComment_eq_self fun c hc => (hm c hc).2, tokensFrom_of_plainText hm, endToken_mnemonicOf, hop]
    rfl
  · next c rest hop =>
    rw [← hop]
    have hline : ∀ d ∈ (mnemonicOf i).toList ++ ' ' :: operandText i, d ≠ ';' := by
      simp only [List.mem_append, List.mem_cons]
      rintro d (hd | rfl | hd)
      · exact (hm d hd).2
      · decide
      · exact (ho d hd).2
    rw [stripComment_eq_self hline, tokensFrom_append_of_plainText hm, List.nil_append, tokensFrom_space,
      tokensFrom_of_plainText ho, endToken_mnemonicOf, List.singleton_append]

/-! ## The operand of a printed line -/

/-- The printed digits of a number are read back, after those read so far. -/
theorem digitsFrom_hexChars (acc digits n : Nat) :
    digitsFrom hexDigit 16 acc ((List.range digits).reverse.map fun k => hexChar (n / 16 ^ k % 16)) =
      some (acc * 16 ^ digits + n % 16 ^ digits) := by
  induction digits generalizing acc with
  | zero => simp [digitsFrom, Nat.mod_one]
  | succ k ih =>
    have hdigit := hexDigit_hexChar (n / 16 ^ k % 16) (Nat.mod_lt _ (by decide))
    rw [List.range_succ, List.reverse_append, List.reverse_singleton, List.singleton_append, List.map_cons]
    simp only [digitsFrom, hdigit, ih]
    rw [Nat.mod_pow_succ, pow_succ]
    congr 1
    ring

/-- A run of at least one digit is a number. -/
theorem digitsValue_of_ne_nil (digit : Char → Option Nat) (base : Nat) {cs : List Char} (h : cs ≠ []) :
    digitsValue digit base cs = digitsFrom digit base 0 cs := by
  cases cs with
  | nil => exact absurd rfl h
  | cons c cs => rfl

/-- A printed pattern reads as its value (R108). -/
theorem parseNumeral_hexPattern {digits n : Nat} (hd : digits ≠ 0) (hn : n < 16 ^ digits) :
    parseNumeral (hexPattern digits n) = some (.hex n) := by
  rw [hexPattern, parseNumeral, digitsValue_of_ne_nil _ _ (by simpa using hd), digitsFrom_hexChars, Nat.zero_mul,
    Nat.zero_add, Nat.mod_eq_of_lt hn, Option.map_some]

theorem parseByte_hexPattern (v : Byte) : parseByte (hexPattern 2 v.toNat) = .ok v := by
  have hlt := v.isLt
  simp only [parseByte, parseNumeral_hexPattern (digits := 2) (by decide) hlt,
    if_pos (show v.toNat ≤ 0xFF by omega), BitVec.ofNat_toNat, BitVec.setWidth_eq]

theorem parseSample_hexPattern (v : Sample) : parseSample (hexPattern 4 v.toNat) = .ok v := by
  have hlt := v.isLt
  simp only [parseSample, parseNumeral_hexPattern (digits := 4) (by decide) hlt,
    if_pos (show v.toNat ≤ 0xFFFF by omega), BitVec.ofNat_toNat, BitVec.setWidth_eq]

/-! ## A printed line -/

theorem endToken_hexPattern (digits n : Nat) : endToken (hexPattern digits n) = [hexPattern digits n] :=
  endToken_of_ne_nil (List.cons_ne_nil _ _)

/-- The assembler's row of a command's mnemonic reads the command back from its printed operand (R101, R108). -/
theorem asmTable_reads_back (i : Instr) :
    ∃ r, asmTable.find? (fun r => r.1.toList == (mnemonicOf i).toList) = some r ∧
      r.2 (endToken (operandText i)) = .ok i := by
  cases i with
  | modAddBit b => cases b <;> simp [asmTable, mnemonicOf] <;> rfl
  | modAddByte v =>
    simp [asmTable, mnemonicOf, operandText, endToken_hexPattern, withOperand, parseByte_hexPattern, Except.map]
  | demFeedSample v =>
    simp [asmTable, mnemonicOf, operandText, endToken_hexPattern, withOperand, parseSample_hexPattern, Except.map]
  | modIsRfd | modIsDv | modGetSample | demIsDa | demGetBit | rdFault | rdDetpwr =>
    simp [asmTable, mnemonicOf, operandText, endToken, withoutOperand]

/-- Settles O5: the line splits into the mnemonic and the operand, and the mnemonic's row reads the operand back. -/
theorem printedLineAssemblesToItsCommand : Obligations.PrintedLineAssemblesToItsCommand := by
  unfold Obligations.PrintedLineAssemblesToItsCommand
  intro i
  obtain ⟨r, hfind, hread⟩ := asmTable_reads_back i
  simp only [parseLine, tokens_printLine, hfind, hread, Except.map]

namespace Machine

/-! ## Reset -/

/-- Settles O12: the reset move is the oldest of the agenda, and the reset event keeps the parameters and the environment. -/
theorem resetMayBeAssertedAgain : Obligations.ResetMayBeAssertedAgain :=
  fun _ _ => step_of_agenda

end Machine
end Sys2Proof
end
